-- ==== Sys2Proof/Word.lean ====
section
/-! DEFINITION. The word types of the engine: the 8-bit cell and the 21-bit character code. -/

namespace Sys2Proof

/-- `CELL_W` = 8 (R5, 00_scope.md): a tape cell, an input byte, an output byte, an unsigned integer in 0 .. 255 (R6). -/
abbrev Byte := BitVec 8

/-- `CHAR_W` = 21 (R5, R38): the code of one program character as the hardware stores it. -/
abbrev CharWord := BitVec 21

end Sys2Proof
end

