-- ==== Sys2Proof/Config.lean ====
section
/-! DEFINITION. The implementation parameters of R5 (00_scope.md): what is fixed for one machine and changed by no step
(R23, 10_state.md). `PROG`, `PROG_LEN`, `IN`, `IN_LEN` are launch inputs and stand in `Machine.State`. -/

namespace Sys2Proof

/-- When a defect of the program text is looked for: before the first instruction, or when execution meets it.
The values of `CHAR_CHECK` (D4) and of `BRACKET_CHECK` (D5). -/
inductive CheckTime where
  | eager
  | lazy
  deriving DecidableEq, Repr

/-- The configuration of one machine (R5). A model that quantifies over it depends on none of D3, D4, D5, D6. -/
structure Config where
  /-- `TAPE_SIZE`, required to be at least 1 (D6; `Config.wf`). -/
  tapeSize : Nat
  /-- `WS`, the whitespace characters, required to hold no opcode character (R42, D3; `Config.wf`). -/
  ws : List Char
  /-- `CHAR_CHECK`: when an invalid character is reported (D4). -/
  charCheck : CheckTime
  /-- `BRACKET_CHECK`: when unbalanced brackets are reported (D5). The meaning of `eager` is the model's: log 10. -/
  bracketCheck : CheckTime
  deriving DecidableEq, Repr

/-- The default of `WS`: the 25 code points of R42 (30_encoding.md), in the table's order. -/
def defaultWhitespace : List Char :=
  [Char.ofNat 0x0009, Char.ofNat 0x000A, Char.ofNat 0x000B, Char.ofNat 0x000C, Char.ofNat 0x000D,
   Char.ofNat 0x0020, Char.ofNat 0x0085, Char.ofNat 0x00A0, Char.ofNat 0x1680] ++
  [Char.ofNat 0x2000, Char.ofNat 0x2001, Char.ofNat 0x2002, Char.ofNat 0x2003, Char.ofNat 0x2004,
   Char.ofNat 0x2005, Char.ofNat 0x2006, Char.ofNat 0x2007, Char.ofNat 0x2008, Char.ofNat 0x2009,
   Char.ofNat 0x200A] ++
  [Char.ofNat 0x2028, Char.ofNat 0x2029, Char.ofNat 0x202F, Char.ofNat 0x205F, Char.ofNat 0x3000]

/-- The values this hardware takes (third column of R5's table). -/
def Config.default : Config where
  tapeSize := 1000
  ws := defaultWhitespace
  charCheck := .eager
  bracketCheck := .lazy

end Sys2Proof
end

