-- ==== Sys2Proof/Syntax.lean ====
section
/-! DEFINITION. The instruction set: the ten rows of the dispatch table (R52, 40_engine_cycle.md). -/

namespace Sys2Proof

/-- One constructor per instruction of the dispatch table (R52). No instruction has an operand field (R39); `nop` and
`invalid` carry the character itself, since 25 code points (`WS`, R42) share the first and every remaining character the
second (log 13). -/
inductive Instr where
  /-- `RIGHT`, the character `>` (R57). -/
  | right
  /-- `LEFT`, the character `<` (R58). -/
  | left
  /-- `INC`, the character `+` (R59). -/
  | inc
  /-- `DEC`, the character `-` (R60). -/
  | dec
  /-- `OUT`, the character `.` (R61). -/
  | output
  /-- `IN`, the character `,` (R62). -/
  | input
  /-- `LOOP`, the character `[` (R63). -/
  | loop
  /-- `ENDLOOP`, the character `]` (R64). -/
  | endloop
  /-- `NOP`, a whitespace character (R65). -/
  | nop (c : Char)
  /-- `INVALID`, any other character (R66). -/
  | invalid (c : Char)
  deriving DecidableEq, Repr

end Sys2Proof
end

