-- ==== Sys2Proof/WellFormed.lean ====
section
/-! DEFINITION. Which configurations and which instruction terms are well formed. -/

namespace Sys2Proof

/-- The eight opcode characters in the order of R40 (30_encoding.md). -/
def opcodeChars : List Char := ['>', '<', '+', '-', '.', ',', '[', ']']

/-- `TAPE_SIZE >= 1` (D6) and `WS` disjoint from the eight opcode characters (R42). -/
def Config.wf (cfg : Config) : Bool :=
  decide (1 ≤ cfg.tapeSize) && opcodeChars.all (fun c => decide (c ∉ cfg.ws))

/-- A term stands for an instruction of a machine with whitespace `ws`: a `nop` carries a character of `ws` that is no
opcode (R42), an `invalid` a character of neither kind (R43). -/
def Instr.wf (ws : List Char) : Instr → Bool
  | .right => true
  | .left => true
  | .inc => true
  | .dec => true
  | .output => true
  | .input => true
  | .loop => true
  | .endloop => true
  | .nop c => decide (c ∉ opcodeChars) && decide (c ∈ ws)
  | .invalid c => decide (c ∉ opcodeChars) && decide (c ∉ ws)

end Sys2Proof
end

