-- ==== Sys2Proof/Decode.lean ====
section
/-! DEFINITION. Decoding (R41, 30_encoding.md) and encoding (R40, R42, R43, R45), for characters and for the 21-bit
words the hardware stores them in (R38). -/

namespace Sys2Proof

/-- `Decode` of R41: total on characters, tested in the rule's order. Decoding depends on the character alone (R38). -/
def decode (ws : List Char) (c : Char) : Instr :=
  if c = '>' then .right
  else if c = '<' then .left
  else if c = '+' then .inc
  else if c = '-' then .dec
  else if c = '.' then .output
  else if c = ',' then .input
  else if c = '[' then .loop
  else if c = ']' then .endloop
  else if c ∈ ws then .nop c
  else .invalid c

/-- Why a number is no program character (R38, R47): the host never delivers one. -/
inductive DecodeReject where
  /-- The value needs more than the 21 bits of a character (R38). -/
  | widerThanCharacter
  /-- A 21-bit value that is no Unicode scalar value: a surrogate, or above U+10FFFF (R47). -/
  | notScalarValue
  deriving DecidableEq, Repr

/-- The character whose code is `w`, or why there is none. -/
def charOfCode (w : Nat) : Except DecodeReject Char :=
  if 2 ^ 21 ≤ w then .error .widerThanCharacter
  else if Nat.isValidChar w then .ok (Char.ofNat w)
  else .error .notScalarValue

/-- Decoding of a stored word: the character of that code (R38), then `Decode` (R41). -/
def decodeWord (ws : List Char) (w : Nat) : Except DecodeReject Instr :=
  match charOfCode w with
  | .ok c => .ok (decode ws c)
  | .error r => .error r

/-- The character that is the instruction (R40, R45): the glyph, or the character `nop` and `invalid` carry. -/
def encode : Instr → Char
  | .right => '>'
  | .left => '<'
  | .inc => '+'
  | .dec => '-'
  | .output => '.'
  | .input => ','
  | .loop => '['
  | .endloop => ']'
  | .nop c => c
  | .invalid c => c

/-- A character as the 21-bit value of its code point (R38). -/
def charWord (c : Char) : CharWord := BitVec.ofNat 21 c.toNat

/-- The stored word of an instruction (format `C`, R38). -/
def encodeWord (i : Instr) : CharWord := charWord (encode i)

/-- What the decoder of the default machine reads from a word numbered as opcode_table.json numbers it: bit 0 least
significant, every bit at `nbits` and above 0 (log 21). -/
def decodeTableWord (nbits w : Nat) : Option Instr :=
  match decodeWord Config.default.ws (w % 2 ^ nbits) with
  | .ok i => some i
  | .error _ => none

end Sys2Proof
end

