-- ==== Sys2Proof/Machine/State.lean ====
section
/-! DEFINITION. The architectural state of one engine instance (R11, 10_state.md), its reset values (R24) and the
reasons a step of the model can stop. -/

namespace Sys2Proof.Machine

/-- The tape's contents as (index, byte) pairs in one canonical form: indices strictly rising, no entry equal to what an
unlisted index reads as (`Memory.wf`, Machine/Memory.lean; log 19). -/
abbrev Memory := List Host.Cell

/-- `STATUS` (R17). -/
inductive Status where
  /-- Reset value: the program's characters have not been checked. -/
  | validate
  /-- The dispatch loop is active. -/
  | run
  /-- Terminal: the result is `Ok(OUT)`. -/
  | halted
  /-- Terminal: the result is `Err(ERR)`. -/
  | faulted
  deriving DecidableEq, Repr

/-- The four faults the machine raises and takes (R77). -/
inductive ErrKind where
  /-- R78; carries the offending character. -/
  | unexpectedCharInCode (c : Char)
  /-- R79. -/
  | unexpectedEndOfInput
  /-- R80. -/
  | unbalancedBrackets
  /-- R81. -/
  | outOfBoundsAccess
  deriving DecidableEq, Repr

/-- The complete architectural state (R11), with the configuration the machine runs under (log 1). -/
structure State where
  /-- The parameters of R5; changed by no step (R23). -/
  cfg : Config
  /-- `PROG`, one character a position (R19); `PROG_LEN` is its length. -/
  prog : List Char
  /-- `IN`, the supplied input bytes (R15); `IN_LEN` is its length. -/
  input : List Byte
  /-- `TAPE` (R14). -/
  tape : Memory
  /-- `MP` (R13). -/
  mp : Nat
  /-- `IP`, the pseudocode's `pc` (R12). -/
  ip : Nat
  /-- `IC` (R15). -/
  ic : Nat
  /-- `OUT`, first appended first (R16). -/
  out : List Byte
  /-- `STATUS` (R17). -/
  status : Status
  /-- `ERR` (R18); `none` is kind 0. -/
  err : Option ErrKind
  deriving DecidableEq, Repr

/-- Why a step of the MODEL stops. The hardware's own four faults are no stop: they are taken (R84) and end in a next
state. -/
inductive Fault where
  /-- Raised by the cell access of `+ - . , [ ]` when `MP` is no cell index; no such cell exists (R31). No run reaches
  it (R13). Safe: the model stops. -/
  | noSuchCell
  /-- Raised by `step` when `STATUS` is `HALTED`: the engine has no step (R25). Safe: the model stops. -/
  | engineHalted
  /-- Raised by `step` when `STATUS` is `FAULTED`: the engine has no step (R25). Safe: the model stops. -/
  | engineFaulted
  deriving DecidableEq, Repr

/-- Why the model gives an instruction no meaning. -/
inductive Refusal where
  /-- Raised by an arm of `exec` whose instruction has no meaning yet; no arm does. Safe: the model stops. -/
  | notModelled (mnemonic : String)
  deriving DecidableEq, Repr

/-- What one step answers. -/
abbrev StepOutcome := Host.Outcome State Fault Refusal

/-- The state when a launch begins (R24): the host has placed `PROG` and `IN` (R94) and released reset. -/
def State.launch (cfg : Config) (prog : List Char) (input : List Byte) : State where
  cfg := cfg
  prog := prog
  input := input
  tape := []
  mp := 0
  ip := 0
  ic := 0
  out := []
  status := .validate
  err := none

/-- The machine right after reset with nothing loaded (log 2): default configuration, empty `PROG`, empty `IN`. -/
def State.reset : State := State.launch Config.default [] []

end Sys2Proof.Machine
end

