-- ==== Sys2Proof/Machine/Memory.lean ====
section
/-! DEFINITION. The tape as a canonical list: reading and writing one cell (R14, R33), and the canonical form. -/

namespace Sys2Proof.Machine

/-- What a cell that nothing has written holds: 0, the reset value of every cell (R24). -/
def Memory.unlisted : Byte := 0

/-- The value of one cell. -/
def Memory.read : Memory → Nat → Byte
  | [], _ => Memory.unlisted
  | (k, v) :: m, a => if a = k then v else Memory.read m a

/-- The list without the cell at index `a`: that cell holds the unlisted value again. -/
def Memory.erase (m : Memory) (a : Nat) : Memory := m.filter (fun c => decide (c.1 ≠ a))

/-- The list with a cell put before the first listed cell of a higher index. -/
def Memory.insert : Memory → Nat → Byte → Memory
  | [], a, v => [(a, v)]
  | (k, w) :: m, a, v => if a < k then (a, v) :: (k, w) :: m else (k, w) :: Memory.insert m a v

/-- The tape with one cell replaced, in canonical form again: a cell written with the unlisted value leaves the list. -/
def Memory.write (m : Memory) (a : Nat) (v : Byte) : Memory :=
  if v = Memory.unlisted then m.erase a else (m.erase a).insert a v

/-- Canonical from index `lo` on: indices at least `lo`, strictly rising, no listed cell with the unlisted value. -/
def Memory.wfFrom : Nat → Memory → Bool
  | _, [] => true
  | lo, (k, v) :: m => decide (lo ≤ k) && decide (v ≠ Memory.unlisted) && Memory.wfFrom (k + 1) m

/-- The canonical form: two canonical tapes with equal cells are equal lists. -/
def Memory.wf (m : Memory) : Bool := Memory.wfFrom 0 m

/-- Every listed cell has an index below `n`: with `n` = `TAPE_SIZE`, the tape lists no cell that does not exist (R31). -/
def Memory.below (n : Nat) (m : Memory) : Bool := m.all (fun c => decide (c.1 < n))

end Sys2Proof.Machine
end

