-- ==== Sys2Proof/Machine/Ops.lean ====
section
/-! DEFINITION. The pseudocode primitives of R7 (00_scope.md), the only ways a rule touches state; fault entry (R84),
which every fault goes through; normal halt (R55); reset (R93), the only way out of a terminal state (R87). -/

namespace Sys2Proof.Machine

/-- `ProgRead(pos)`: the character at a position, `none` from `PROG_LEN` on. Also the fetch of R51 at `IP`. -/
def progRead (pos : Nat) (s : State) : Option Char := s.prog[pos]?

/-- `MemRead(addr, 1)`, which requires `addr < TAPE_SIZE` (R7): no other cell exists (R31; log 5). -/
def memRead (addr : Nat) (s : State) : Except Fault Byte :=
  if addr < s.cfg.tapeSize then .ok (s.tape.read addr) else .error .noSuchCell

/-- `MemWrite(addr, 1, v)`, with the same requirement (R7; log 5). -/
def memWrite (addr : Nat) (v : Byte) (s : State) : Except Fault State :=
  if addr < s.cfg.tapeSize then .ok { s with tape := s.tape.write addr v } else .error .noSuchCell

/-- `InAvail()` and `InPop()` in one: the next input byte and the state with `IC` moved past it, or `none` when
`IC = IN_LEN` (R7, R15). -/
def inPop (s : State) : Option (Byte × State) :=
  match s.input[s.ic]? with
  | some b => some (b, { s with ic := s.ic + 1 })
  | none => none

/-- `OutPush(b)` (R7, R16). -/
def outPush (b : Byte) (s : State) : State := { s with out := s.out ++ [b] }

/-- `MP <- a`. -/
def setMp (a : Nat) (s : State) : State := { s with mp := a }

/-- `pc <- t`. -/
def jump (t : Nat) (s : State) : State := { s with ip := t }

/-- `pc <- pc + 1` (R53). -/
def advance (s : State) : State := jump (s.ip + 1) s

/-- `STATUS <- st` (R17). -/
def setStatus (st : Status) (s : State) : State := { s with status := st }

/-- `halt` (R55): only `STATUS` changes. -/
def halt (s : State) : State := setStatus .halted s

/-- `raise E`: fault entry (R84) from the state in which the raising step began, none of whose writes were performed
(R7). `ERR` records the fault, the output is discarded (R86), the engine stops. There is no handler, no vector and no
saved pc. -/
def raise (e : ErrKind) (s : State) : State := { s with err := some e, out := [], status := .faulted }

/-- Reset (R93): every state element at its reset value (R24), `PROG` and `IN` kept. There is no other return from a
fault (R87). -/
def relaunch (s : State) : State := State.launch s.cfg s.prog s.input

/-- Goes on with the value of an access, or stops with its stop reason. -/
def orStop {α : Type} (r : Except Fault α) (k : α → StepOutcome) : StepOutcome :=
  match r with
  | .ok a => k a
  | .error f => .fault f

/-- `prog` with the character `c` at position `pos`; a gap before it is filled with U+0020. Serves only
`State.withFetchWord` (log 3): no instruction writes `PROG` (R19). -/
def placeChar : List Char → Nat → Char → List Char
  | [], 0, c => [c]
  | _ :: l, 0, c => c :: l
  | [], n + 1, c => ' ' :: placeChar [] n c
  | x :: l, n + 1, c => x :: placeChar l n c

/-- `ERR.kind` (R18): the code of the recorded fault (R77), 0 for none. -/
def errKind (s : State) : BitVec 3 :=
  match s.err with
  | none => 0
  | some (.unexpectedCharInCode _) => 1
  | some .unexpectedEndOfInput => 2
  | some .unbalancedBrackets => 3
  | some .outOfBoundsAccess => 4

/-- `ERR.char` (R18): the character of an `UnexpectedCharInCode`, else 0. -/
def errChar (s : State) : CharWord :=
  match s.err with
  | none => 0
  | some (.unexpectedCharInCode c) => BitVec.ofNat 21 c.toNat
  | some .unexpectedEndOfInput => 0
  | some .unbalancedBrackets => 0
  | some .outOfBoundsAccess => 0

/-- `ERR` as its 24 bits: kind in bits 23..21, character in bits 20..0 (R18). -/
def errWord (s : State) : BitVec 24 := errKind s ++ errChar s

end Sys2Proof.Machine
end

