-- ==== Sys2Proof/Machine/Operands.lean ====
section
/-! DEFINITION. The operands. None is encoded (R39, 30_encoding.md); the one data operand is the current cell
`TAPE[MP]`, the only cell an instruction can reach (R27, 20_memory.md). -/

namespace Sys2Proof.Machine

/-- The index of the current cell: the only data address there is (R27). Also the address `+`, `-` and `,` store to. -/
def currentAddr (s : State) : Nat := s.mp

/-- Runs `k` on the value of the current cell. -/
def withCell (s : State) (k : Byte → StepOutcome) : StepOutcome := orStop (memRead (currentAddr s) s) k

/-- Writes the current cell, then advances (the last action of R59, R60, R62; R53). -/
def storeCell (v : Byte) (s : State) : StepOutcome :=
  orStop (memWrite (currentAddr s) v s) (fun t => .next (advance t))

end Sys2Proof.Machine
end

