-- ==== Sys2Proof/Machine/CellArith.lean ====
section
/-! DEFINITION. Cell arithmetic instructions (42_cell_arith.md): unsigned 8-bit, modulo 256, no overflow signal (R104). -/

namespace Sys2Proof.Machine

/-- `(v + 1) mod 256` (R59). -/
def cellInc (v : Byte) : Byte := BitVec.ofNat 8 ((v.toNat + 1) % 256)

/-- `(v + 255) mod 256`, that is `(v - 1) mod 256` (R60). -/
def cellDec (v : Byte) : Byte := BitVec.ofNat 8 ((v.toNat + 255) % 256)

/-- `INC`, `+` (R59). -/
def execInc (s : State) : StepOutcome := withCell s (fun v => storeCell (cellInc v) s)

/-- `DEC`, `-` (R60). -/
def execDec (s : State) : StepOutcome := withCell s (fun v => storeCell (cellDec v) s)

end Sys2Proof.Machine
end

