-- ==== Sys2Proof/Machine/InputOutput.lean ====
section
/-! DEFINITION. Input and output instructions (43_io.md). -/

namespace Sys2Proof.Machine

/-- `OUT`, `.` (R61): the cell is appended as it is and not changed; the buffer never refuses a byte (D11). -/
def execOutput (s : State) : StepOutcome := withCell s (fun v => .next (advance (outPush v s)))

/-- `IN`, `,` (R62): with no byte left it raises `UnexpectedEndOfInput` and consumes nothing; it never waits (R15). -/
def execInput (s : State) : StepOutcome :=
  match inPop s with
  | none => .next (raise .unexpectedEndOfInput s)
  | some (b, t) => storeCell b t

end Sys2Proof.Machine
end

