-- ==== Sys2Proof/Machine/Flags.lean ====
section
/-! DEFINITION. Conditions. The machine has no flags (R20, 10_state.md): the one condition any instruction tests is
"current cell = 0", computed from the cell when `[` or `]` executes and latched nowhere. -/

namespace Sys2Proof.Machine

/-- The cell zero test: equality of an 8-bit value with 0, no signed reading (R104). -/
def cellIsZero (v : Byte) : Bool := decide (v = 0)

end Sys2Proof.Machine
end

