-- ==== Sys2Proof/Machine/Matcher.lean ====
section
/-! DEFINITION. The bracket matcher (46_bracket_matcher.md): `FindBoundary`, a pure function of `PROG`, a start and a
direction (R67); and the balance of a whole program, used only by `BRACKET_CHECK = EAGER` (log 10). -/

namespace Sys2Proof.Machine

/-- The two scan directions (R67). -/
inductive Direction where
  | forward
  | backward
  deriving DecidableEq, Repr

/-- The direction sign `s` of R70. -/
def Direction.sign : Direction → Int
  | .forward => 1
  | .backward => -1

/-- What one scanned character adds to the depth counter: `+s` for `[`, `-s` for `]`, nothing for any other (R68, R71). -/
def depthChange (dir : Direction) (c : Char) : Int :=
  if c = '[' then dir.sign else if c = ']' then -dir.sign else 0

/-- The positions a scan from `pos` visits, in the order it visits them, each with its character (R68, R70): up to the
end of the program, or down to position 0; none when `pos` is outside the program. -/
def scanPath (prog : List Char) (dir : Direction) (pos : Int) : List (Char × Nat) :=
  if pos < 0 ∨ (prog.length : Int) ≤ pos then []
  else match dir with
    | .forward => prog.zipIdx.drop pos.toNat
    | .backward => (prog.zipIdx.take (pos.toNat + 1)).reverse

/-- The loop of R68 over the characters still to visit, with the depth counter so far. Both tests stand after every
character, in the rule's order. Running out of characters is running off an end of the program (R72). -/
def scan (dir : Direction) : Int → List (Char × Nat) → Except ErrKind Nat
  | _, [] => .error .unbalancedBrackets
  | depth, (c, pos) :: rest =>
    if depth + depthChange dir c < 0 then .error .unbalancedBrackets
    else if depth + depthChange dir c = 0 then .ok pos
    else scan dir (depth + depthChange dir c) rest

/-- The scan from `pos` with the depth counter at `depth`: the state of R68's loop at one of its iterations. -/
def scanFrom (prog : List Char) (dir : Direction) (depth pos : Int) : Except ErrKind Nat :=
  scan dir depth (scanPath prog dir pos)

/-- `FindBoundary(from, dir)` (R68): the scan from `from` with the depth counter at 0 (R69). Total: improper calls
included (R76). -/
def findBoundary (prog : List Char) (start : Int) (dir : Direction) : Except ErrKind Nat :=
  scanFrom prog dir 0 start

/-- With `depth` brackets open, the rest of the text closes each of them and every one it opens, and no `]` comes too
early. -/
def closesFrom : Nat → List Char → Bool
  | depth, [] => decide (depth = 0)
  | depth, c :: rest =>
    if c = '[' then closesFrom (depth + 1) rest
    else if c = ']' then
      match depth with
      | 0 => false
      | d + 1 => closesFrom d rest
    else closesFrom depth rest

/-- The brackets of the whole program are balanced (D5). -/
def bracketsBalanced (prog : List Char) : Bool := closesFrom 0 prog

end Sys2Proof.Machine
end

