-- ==== Sys2Proof/Machine/Loops.lean ====
section
/-! DEFINITION. Loop instructions (44_loops.md): the only control transfers (R103). -/

namespace Sys2Proof.Machine

/-- The jump both loop instructions take: `pc <- FindBoundary(pc, dir) + 1`, or the fault the matcher raises (R63, R64).
The matcher is called at every taken jump; nothing is remembered (R37, R74). -/
def jumpPastBoundary (dir : Direction) (s : State) : State :=
  match findBoundary s.prog s.ip dir with
  | .ok b => jump (b + 1) s
  | .error e => raise e s

/-- `LOOP`, `[` (R63): with the cell 0 it jumps behind the matching `]`, else it advances and no matcher is called. -/
def execLoop (s : State) : StepOutcome :=
  withCell s (fun v => if cellIsZero v then .next (jumpPastBoundary .forward s) else .next (advance s))

/-- `ENDLOOP`, `]` (R64): with the cell not 0 it jumps behind the matching `[`, else it advances and no matcher is
called. -/
def execEndloop (s : State) : StepOutcome :=
  withCell s (fun v => if cellIsZero v then .next (advance s) else .next (jumpPastBoundary .backward s))

end Sys2Proof.Machine
end

