-- ==== Sys2Proof/Machine/NopInvalid.lean ====
section
/-! DEFINITION. Whitespace and the invalid character (45_nop_invalid.md). -/

namespace Sys2Proof.Machine

/-- `NOP`, a whitespace character (R65): advances; all characters of `WS` behave alike. -/
def execNop (s : State) : StepOutcome := .next (advance s)

/-- `INVALID`, any other character (R66): raises `UnexpectedCharInCode(c)` and does not advance. Under
`CHAR_CHECK = EAGER` the validate step has rejected the program before (R49). -/
def execInvalid (c : Char) (s : State) : StepOutcome := .next (raise (.unexpectedCharInCode c) s)

end Sys2Proof.Machine
end

