-- ==== Sys2Proof/Machine/Pointer.lean ====
section
/-! DEFINITION. Pointer instructions (41_pointer.md). -/

namespace Sys2Proof.Machine

/-- `RIGHT`, `>` (R57): at the last cell, `MP = TAPE_SIZE - 1`, it raises `OutOfBoundsAccess`; it never wraps. -/
def execRight (s : State) : StepOutcome :=
  if s.mp + 1 = s.cfg.tapeSize then .next (raise .outOfBoundsAccess s)
  else .next (advance (setMp (s.mp + 1) s))

/-- `LEFT`, `<` (R58): at cell 0 it raises `OutOfBoundsAccess`; it never wraps. -/
def execLeft (s : State) : StepOutcome :=
  if s.mp = 0 then .next (raise .outOfBoundsAccess s)
  else .next (advance (setMp (s.mp - 1) s))

end Sys2Proof.Machine
end

