-- ==== Sys2Proof/Machine/Dispatch.lean ====
section
/-! DEFINITION. The dispatch table (R52, 40_engine_cycle.md), one arm per instruction. -/

namespace Sys2Proof.Machine

/-- The decoded class selects exactly one instruction rule (R52). -/
def exec (i : Instr) (s : State) : Host.Outcome State Fault Refusal :=
  match i with
  | .right => Sys2Proof.Machine.execRight s
  | .left => Sys2Proof.Machine.execLeft s
  | .inc => Sys2Proof.Machine.execInc s
  | .dec => Sys2Proof.Machine.execDec s
  | .output => Sys2Proof.Machine.execOutput s
  | .input => Sys2Proof.Machine.execInput s
  | .loop => Sys2Proof.Machine.execLoop s
  | .endloop => Sys2Proof.Machine.execEndloop s
  | .nop _ => Sys2Proof.Machine.execNop s
  | .invalid c => Sys2Proof.Machine.execInvalid c s

end Sys2Proof.Machine
end

