-- ==== Sys2Proof/Machine/Validate.lean ====
section
/-! DEFINITION. The validate step (R49, R50, 40_engine_cycle.md) under each value of `CHAR_CHECK` (D4) and
`BRACKET_CHECK` (D5). -/

namespace Sys2Proof.Machine

/-- `Decode(c) = INVALID(c)` (R41, R43). -/
def isInvalid (ws : List Char) (c : Char) : Bool := decide (decode ws c = .invalid c)

/-- The invalid character at the lowest position (R50), if the program holds one. -/
def firstInvalid (ws : List Char) (prog : List Char) : Option Char := prog.find? (isInvalid ws)

/-- The defect the character check reports: under `LAZY` it looks at nothing (D4). -/
def charDefect (s : State) : Option ErrKind :=
  match s.cfg.charCheck with
  | .lazy => none
  | .eager => (firstInvalid s.cfg.ws s.prog).map .unexpectedCharInCode

/-- The defect the bracket check reports: under `LAZY`, this hardware's value, it looks at nothing (R74, R98). The
meaning of `EAGER` is the model's reading of D5 (log 10). -/
def bracketDefect (s : State) : Option ErrKind :=
  match s.cfg.bracketCheck with
  | .lazy => none
  | .eager => if bracketsBalanced s.prog then none else some .unbalancedBrackets

/-- The validate step (R49): it raises and executes no instruction, or it changes `STATUS` to `RUN` and nothing else.
A character defect goes before a bracket defect (R78: it precedes every other fault). -/
def validateStep (s : State) : State :=
  match charDefect s with
  | some e => raise e s
  | none =>
    match bracketDefect s with
    | some e => raise e s
    | none => setStatus .run s

end Sys2Proof.Machine
end

