-- ==== Sys2Proof/Machine/Engine.lean ====
section
/-! DEFINITION. The instruction step: fetch, decode, execute (R51, R52, 40_engine_cycle.md); and the load of one
instruction where it is fetched, for the pipeline's probe. -/

namespace Sys2Proof.Machine

/-- The instruction step (R51): past the end it halts (R55), else it fetches, decodes and executes one instruction. -/
def instructionStep (s : State) : StepOutcome :=
  match progRead s.ip s with
  | none => .next (halt s)
  | some c => exec (decode s.cfg.ws c) s

/-- `s` with the character whose code is `w` (numbered as `decodeTableWord` numbers it) at position `IP` of `PROG` and
`STATUS` at `RUN` (log 3). A word that is no character cannot stand in `PROG` (R47) and changes nothing. -/
def placeWord (s : State) (nbits w : Nat) : State :=
  match charOfCode (w % 2 ^ nbits) with
  | .ok c => { s with prog := placeChar s.prog s.ip c, status := .run }
  | .error _ => s

end Sys2Proof.Machine
end

