-- ==== Sys2Proof/Machine/Step.lean ====
section
/-! DEFINITION. One step of the engine (R48, R51, 40_engine_cycle.md), and the probe that puts one instruction where the
next step fetches it. -/

namespace Sys2Proof.Machine

/-- The step relation (R48): the validate step in `VALIDATE`, the instruction step in `RUN`, no step in a terminal
state (R25; log 4). -/
def step (s : State) : Host.Outcome State Fault Refusal :=
  match s.status with
  | .validate => .next (validateStep s)
  | .run => instructionStep s
  | .halted => .fault .engineHalted
  | .faulted => .fault .engineFaulted

/-- `s` with the instruction word `w` loaded at `IP` and the dispatch loop active, so that the very next step runs it
(`placeWord`, Machine/Engine.lean; log 3). -/
def State.withFetchWord (s : State) (nbits w : Nat) : State := placeWord s nbits w

end Sys2Proof.Machine
end

