-- ==== Sys2Proof/Machine/Result.lean ====
section
/-! DEFINITION. What the host gets back (R48, 40_engine_cycle.md; R96, 70_reset_and_hazards.md). -/

namespace Sys2Proof.Machine

/-- The result of a launch: `Ok(bytes)` or `Err(kind)` (R96). -/
inductive RunResult where
  | ok (bytes : List Byte)
  | err (kind : ErrKind)
  deriving DecidableEq, Repr

/-- `Result` of R48: nothing while the run goes on, `Ok(OUT)` when halted, `Err(ERR)` when faulted. -/
def State.result (s : State) : Option RunResult :=
  match s.status with
  | .validate => none
  | .run => none
  | .halted => some (.ok s.out)
  | .faulted => s.err.map .err

end Sys2Proof.Machine
end

