-- ==== Sys2Proof/Safety.lean ====
section
/-! DEFINITION. The terms claims are stated in: what a fault leaves (R84, R85), what a step must not touch, and the
invariant of every reachable state. -/

namespace Sys2Proof.Machine

/-- `t` runs the same launch as `s`: the configuration, `PROG` and `IN` are the same (R19, R23, R36). -/
structure SameLaunch (s t : State) : Prop where
  cfg : t.cfg = s.cfg
  prog : t.prog = s.prog
  input : t.input = s.input

/-- `t` is what fault entry with kind `e` leaves of `s`, said field by field (R84): `ERR` records the fault, `OUT` is
empty, `STATUS` is `FAULTED`, and `TAPE`, `MP`, `IP`, `IC` are those of `s` (R85). -/
structure TakesFault (e : ErrKind) (s t : State) : Prop where
  launch : SameLaunch s t
  err : t.err = some e
  out : t.out = []
  status : t.status = .faulted
  tape : ∀ a, t.tape.read a = s.tape.read a
  mp : t.mp = s.mp
  ip : t.ip = s.ip
  ic : t.ic = s.ic

/-- The step of `s` that gave `t` completed without a fault: `STATUS` and `ERR` are unchanged. -/
structure NoFault (s t : State) : Prop where
  status : t.status = s.status
  err : t.err = s.err

/-- Every cell reads in `t` as in `s`. -/
def CellsUnchanged (s t : State) : Prop := ∀ a, t.tape.read a = s.tape.read a

/-- Every cell but the one at index `a` reads in `t` as in `s`. -/
def CellsUnchangedBut (a : Nat) (s t : State) : Prop := ∀ b, b ≠ a → t.tape.read b = s.tape.read b

/-- The run has ended (R17): no step is left (R25). -/
def State.Terminal (s : State) : Prop := s.status = .halted ∨ s.status = .faulted

/-- The characters of `prog` from position `p` to position `q` inclusive. -/
def segment (prog : List Char) (p q : Nat) : List Char := (prog.drop p).take (q + 1 - p)

/-- The segment holds equally many `[` and `]` (R75). -/
def EvenSegment (prog : List Char) (p q : Nat) : Prop :=
  (segment prog p q).count '[' = (segment prog p q).count ']'

/-- `s` under other values of `CHAR_CHECK` and `BRACKET_CHECK` (D4, D5), everything else the same. -/
def State.withChecks (s : State) (charCheck bracketCheck : CheckTime) : State :=
  { s with cfg := { s.cfg with charCheck := charCheck, bracketCheck := bracketCheck } }

/-- What holds of every state a launch of a well-formed configuration reaches. -/
structure State.Inv (s : State) : Prop where
  /-- `TAPE_SIZE >= 1` and `WS` holds no opcode (D6, R42). -/
  cfgWf : s.cfg.wf = true
  /-- The tape is in canonical form. -/
  tapeWf : s.tape.wf = true
  /-- No cell outside `0 .. TAPE_SIZE-1` is listed (R14, R31). -/
  tapeBelow : s.tape.below s.cfg.tapeSize = true
  /-- `0 <= MP <= TAPE_SIZE-1` (R13). -/
  mpInTape : s.mp < s.cfg.tapeSize
  /-- `0 <= IP <= PROG_LEN` (R12). -/
  ipInProg : s.ip ≤ s.prog.length
  /-- `0 <= IC <= IN_LEN` (R15). -/
  icInInput : s.ic ≤ s.input.length
  /-- Before the validate step nothing has happened (R22, R49): the state is the reset state (R24). -/
  validateFresh : s.status = .validate → s = State.launch s.cfg s.prog s.input
  /-- `ERR` holds a fault exactly when `STATUS` is `FAULTED` (R18, R84). -/
  errIffFaulted : s.err ≠ none ↔ s.status = .faulted
  /-- A faulted run has no output (R86). -/
  faultedNoOutput : s.status = .faulted → s.out = []
  /-- A run halts only past the end of the program (R55). -/
  haltedAtEnd : s.status = .halted → s.ip = s.prog.length
  /-- The reported character stands in the program and is invalid (R78). -/
  errCharInProg : ∀ c, s.err = some (.unexpectedCharInCode c) → c ∈ s.prog ∧ decode s.cfg.ws c = .invalid c
  /-- Under the eager character check a program with an invalid character ends with that fault and no other, for the
  character at the lowest position (R50, R78). -/
  eagerCharFault : s.cfg.charCheck = .eager → s.status ≠ .validate →
    ∀ c, firstInvalid s.cfg.ws s.prog = some c → s.err = some (.unexpectedCharInCode c)
  /-- Under the eager bracket check only a balanced program runs (log 10). -/
  eagerBrackets : s.cfg.bracketCheck = .eager → (s.status = .run ∨ s.status = .halted) →
    bracketsBalanced s.prog = true

end Sys2Proof.Machine
end

