-- ==== Sys2Proof/Certificates/Slice0/Obligations.lean ====
section
/-! DEFINITION. The statements for the provers, in the terms of Sys2Proof/Safety.lean. Each docstring names the rule or
the section of spec/ the statement rests on. -/

open Sys2Proof Sys2Proof.Machine

/-! ### Encoding (30_encoding.md) -/

/-- R41: `Decode` is total and classifies a character by its code point; whitespace only where no opcode matches, the
invalid class only where neither does. -/
def Obligations.DecodeClassifiesByCodePoint : Prop :=
  ∀ (ws : List Char) (c : Char),
    (c.toNat = 0x3E → decode ws c = .right) ∧
    (c.toNat = 0x3C → decode ws c = .left) ∧
    (c.toNat = 0x2B → decode ws c = .inc) ∧
    (c.toNat = 0x2D → decode ws c = .dec) ∧
    (c.toNat = 0x2E → decode ws c = .output) ∧
    (c.toNat = 0x2C → decode ws c = .input) ∧
    (c.toNat = 0x5B → decode ws c = .loop) ∧
    (c.toNat = 0x5D → decode ws c = .endloop) ∧
    (c.toNat ∉ [0x3E, 0x3C, 0x2B, 0x2D, 0x2E, 0x2C, 0x5B, 0x5D] →
      (c ∈ ws → decode ws c = .nop c) ∧ (c ∉ ws → decode ws c = .invalid c))

/-- The words of the opcode table written out bit by bit (R40, R42, R43; opcode_table.json), one for each mnemonic, read
by the decoder of the default machine. -/
def Obligations.TableWordsDecodeToTheirInstructions : Prop :=
  decodeTableWord 24 0b000000000000000111110 = some .right ∧
  decodeTableWord 24 0b000000000000000111100 = some .left ∧
  decodeTableWord 24 0b000000000000000101011 = some .inc ∧
  decodeTableWord 24 0b000000000000000101101 = some .dec ∧
  decodeTableWord 24 0b000000000000000101110 = some .output ∧
  decodeTableWord 24 0b000000000000000101100 = some .input ∧
  decodeTableWord 24 0b000000000000001011011 = some .loop ∧
  decodeTableWord 24 0b000000000000001011101 = some .endloop ∧
  decodeTableWord 24 0b000000011000000000000 = some (.nop (Char.ofNat 0x3000)) ∧
  decodeTableWord 24 0b000000000000001100001 = some (.invalid 'a')

/-- Decoding the stored word of a well-formed instruction gives the instruction back, for every whitespace set and every
character `nop` and `invalid` can carry (R38, R40, R42, R43, R45). -/
def Obligations.DecodeUndoesEncode : Prop :=
  ∀ (ws : List Char) (i : Instr), i.wf ws = true → decodeWord ws (encodeWord i).toNat = .ok i

/-- The other direction: a character decodes to a well-formed instruction that encodes to that character, and a word that
decodes is the stored word of what it decodes to (R38, R41, R45). -/
def Obligations.EncodeUndoesDecode : Prop :=
  (∀ (ws : List Char) (c : Char), (decode ws c).wf ws = true ∧ encode (decode ws c) = c) ∧
  (∀ (ws : List Char) (w : Nat) (i : Instr), decodeWord ws w = .ok i → (encodeWord i).toNat = w)

/-- R38, R47: exactly the Unicode scalar values are characters. That other values are rejected by name is the model's
choice among the two R47 allows (log 6). -/
def Obligations.OnlyScalarValuesAreInstructions : Prop :=
  ∀ (ws : List Char) (w : Nat),
    (∃ i, decodeWord ws w = .ok i) ↔ (w ≤ 0xD7FF ∨ (0xE000 ≤ w ∧ w ≤ 0x10FFFF))

/-- The default `WS` is the table of R42, an open parameter with a default from general knowledge (D3, log 8), and the
default configuration is well formed. -/
def Obligations.DefaultWhitespaceIsTheTable : Prop :=
  (∀ c : Char, c ∈ Config.default.ws ↔
    ((0x0009 ≤ c.toNat ∧ c.toNat ≤ 0x000D) ∨ c.toNat = 0x0020 ∨ c.toNat = 0x0085 ∨ c.toNat = 0x00A0 ∨
      c.toNat = 0x1680 ∨ (0x2000 ≤ c.toNat ∧ c.toNat ≤ 0x200A) ∨ c.toNat = 0x2028 ∨ c.toNat = 0x2029 ∨
      c.toNat = 0x202F ∨ c.toNat = 0x205F ∨ c.toNat = 0x3000)) ∧
  Config.default.wf = true

/-! ### Reset and the run (70_reset_and_hazards.md, 40_engine_cycle.md) -/

/-- R93: reset puts every state element at the value of R24, keeps `PROG` and `IN`, and keeps nothing of the run before
it: two states of one launch reset to the same state. -/
def Obligations.ResetStartsALaunchAfresh : Prop :=
  (∀ s : State, SameLaunch s (relaunch s) ∧
    (∀ a, (relaunch s).tape.read a = 0) ∧ (relaunch s).mp = 0 ∧ (relaunch s).ip = 0 ∧ (relaunch s).ic = 0 ∧
    (relaunch s).out = [] ∧ (relaunch s).status = .validate ∧
    errKind (relaunch s) = 0 ∧ errChar (relaunch s) = 0) ∧
  (∀ s t : State, SameLaunch s t → relaunch s = relaunch t)

/-- The invariant holds when a launch begins (R24, D6, R42), and in the model's `State.reset`, whose empty `PROG` and
`IN` are the model's choice (log 2). -/
def Obligations.LaunchMeetsTheInvariant : Prop :=
  State.reset.Inv ∧
  ∀ (cfg : Config) (prog : List Char) (input : List Byte), cfg.wf = true → (State.launch cfg prog input).Inv

/-- Every step from a state that meets the invariant ends in one that meets it: the ranges of `MP`, `IP`, `IC` (R12, R13,
R15), the tape's form and extent (R14), and what `STATUS`, `ERR` and `OUT` can hold together (R17, R18, R50, R55, R78,
R84, R86). -/
def Obligations.StepKeepsTheInvariant : Prop :=
  ∀ s t : State, s.Inv → step s = .next t → t.Inv

/-- R51: in `RUN` the engine halts past the end of the program, and otherwise fetches the character at `IP`, decodes it and
executes that instruction; said for the character and for the well-formed instruction it encodes. -/
def Obligations.StepExecutesTheFetchedInstruction : Prop :=
  ∀ s : State, s.status = .run →
    (s.prog.length ≤ s.ip → step s = .next (halt s)) ∧
    (∀ c, s.prog[s.ip]? = some c → step s = exec (decode s.cfg.ws c) s) ∧
    (∀ i : Instr, i.wf s.cfg.ws = true → s.prog[s.ip]? = some (encode i) → step s = exec i s)

/-- R55: past the end of the program the run ends normally, nothing but `STATUS` changes, and the result is the output
buffer. -/
def Obligations.NormalHaltReturnsTheOutput : Prop :=
  ∀ s : State, s.status = .run → s.prog.length ≤ s.ip →
    step s = .next { s with status := .halted } ∧
    State.result { s with status := .halted } = some (.ok s.out)

/-- R49, R50: under `CHAR_CHECK = EAGER` the validate step raises `UnexpectedCharInCode` for the invalid character at the
lowest position, and with none (and `BRACKET_CHECK = LAZY`) it changes `STATUS` to `RUN` and nothing else. -/
def Obligations.ValidateReportsTheFirstInvalidCharacter : Prop :=
  ∀ s : State, s.status = .validate → s.cfg.charCheck = .eager →
    ((∀ c ∈ s.prog, decode s.cfg.ws c ≠ .invalid c) → s.cfg.bracketCheck = .lazy →
      step s = .next { s with status := .run }) ∧
    (∀ (p : Nat) (c : Char), s.prog[p]? = some c → decode s.cfg.ws c = .invalid c →
      (∀ (q : Nat) (d : Char), q < p → s.prog[q]? = some d → decode s.cfg.ws d ≠ .invalid d) →
      ∃ t, step s = .next t ∧ TakesFault (.unexpectedCharInCode c) s t)

/-- D4: under `CHAR_CHECK = LAZY` (and `BRACKET_CHECK = LAZY`) the validate step only sets `STATUS` to `RUN`. -/
def Obligations.LazyValidateOnlyStartsTheRun : Prop :=
  ∀ s : State, s.status = .validate → s.cfg.charCheck = .lazy → s.cfg.bracketCheck = .lazy →
    step s = .next { s with status := .run }

/-- The model's reading of `BRACKET_CHECK = EAGER` (D5, log 10: no rule of the spec): the validate step raises
`UnbalancedBrackets` for an unbalanced program when no invalid character has been reported. -/
def Obligations.UpfrontBracketCheckRejectsUnbalancedPrograms : Prop :=
  ∀ s : State, s.status = .validate → s.cfg.bracketCheck = .eager →
    (s.cfg.charCheck = .lazy ∨ ∀ c ∈ s.prog, decode s.cfg.ws c ≠ .invalid c) →
    (bracketsBalanced s.prog = true → step s = .next { s with status := .run }) ∧
    (bracketsBalanced s.prog = false → ∃ t, step s = .next t ∧ TakesFault .unbalancedBrackets s t)

/-- R25: a terminal state has no step. That the model's step then stops with a named reason is its own form of it
(log 4). -/
def Obligations.TerminalStatesHaveNoStep : Prop :=
  ∀ s : State,
    (s.status = .halted → step s = .fault .engineHalted) ∧
    (s.status = .faulted → step s = .fault .engineFaulted)

/-- R48, R101: every step of a non-terminal state is enabled and completes, given the ranges the invariant holds (R13). -/
def Obligations.NonTerminalStatesHaveAStep : Prop :=
  ∀ s : State, s.Inv → ¬ s.Terminal → ∃ t, step s = .next t

/-! ### One statement per instruction: encoding, effect, fault, everything else unchanged -/

/-- R57, `>`. -/
def Obligations.RightMovesThePointerUp : Prop :=
  (∀ ws, decode ws (Char.ofNat 0x3E) = .right) ∧
  ∀ s : State,
    (s.mp + 1 ≠ s.cfg.tapeSize → exec .right s = .next { s with mp := s.mp + 1, ip := s.ip + 1 }) ∧
    (s.mp + 1 = s.cfg.tapeSize → ∃ t, exec .right s = .next t ∧ TakesFault .outOfBoundsAccess s t)

/-- R58, `<`. -/
def Obligations.LeftMovesThePointerDown : Prop :=
  (∀ ws, decode ws (Char.ofNat 0x3C) = .left) ∧
  ∀ s : State,
    (s.mp ≠ 0 → exec .left s = .next { s with mp := s.mp - 1, ip := s.ip + 1 }) ∧
    (s.mp = 0 → ∃ t, exec .left s = .next t ∧ TakesFault .outOfBoundsAccess s t)

/-- R59, `+`. -/
def Obligations.IncAddsOneModulo256 : Prop :=
  (∀ ws, decode ws (Char.ofNat 0x2B) = .inc) ∧
  ∀ s : State, s.mp < s.cfg.tapeSize →
    ∃ t, exec .inc s = .next t ∧
      (t.tape.read s.mp).toNat = ((s.tape.read s.mp).toNat + 1) % 256 ∧
      CellsUnchangedBut s.mp s t ∧
      t.ip = s.ip + 1 ∧ t.mp = s.mp ∧ t.ic = s.ic ∧ t.out = s.out ∧ NoFault s t ∧ SameLaunch s t

/-- R60, `-`. -/
def Obligations.DecSubtractsOneModulo256 : Prop :=
  (∀ ws, decode ws (Char.ofNat 0x2D) = .dec) ∧
  ∀ s : State, s.mp < s.cfg.tapeSize →
    ∃ t, exec .dec s = .next t ∧
      (t.tape.read s.mp).toNat = ((s.tape.read s.mp).toNat + 255) % 256 ∧
      CellsUnchangedBut s.mp s t ∧
      t.ip = s.ip + 1 ∧ t.mp = s.mp ∧ t.ic = s.ic ∧ t.out = s.out ∧ NoFault s t ∧ SameLaunch s t

/-- R61, `.`. -/
def Obligations.OutputAppendsTheCurrentCell : Prop :=
  (∀ ws, decode ws (Char.ofNat 0x2E) = .output) ∧
  ∀ s : State, s.mp < s.cfg.tapeSize →
    exec .output s = .next { s with out := s.out ++ [s.tape.read s.mp], ip := s.ip + 1 }

/-- R62, `,`. The fault is raised whatever `MP` is; a byte is stored when there is a current cell. -/
def Obligations.InputConsumesOneByte : Prop :=
  (∀ ws, decode ws (Char.ofNat 0x2C) = .input) ∧
  (∀ (s : State) (b : Byte), s.mp < s.cfg.tapeSize → s.input[s.ic]? = some b →
    ∃ t, exec .input s = .next t ∧ t.tape.read s.mp = b ∧ CellsUnchangedBut s.mp s t ∧
      t.ic = s.ic + 1 ∧ t.ip = s.ip + 1 ∧ t.mp = s.mp ∧ t.out = s.out ∧ NoFault s t ∧ SameLaunch s t) ∧
  (∀ s : State, s.input.length ≤ s.ic →
    ∃ t, exec .input s = .next t ∧ TakesFault .unexpectedEndOfInput s t)

/-- R63, `[`. -/
def Obligations.LoopSkipsOnAZeroCell : Prop :=
  (∀ ws, decode ws (Char.ofNat 0x5B) = .loop) ∧
  ∀ s : State, s.mp < s.cfg.tapeSize →
    (s.tape.read s.mp ≠ 0 → exec .loop s = .next { s with ip := s.ip + 1 }) ∧
    (∀ b, s.tape.read s.mp = 0 → findBoundary s.prog s.ip .forward = .ok b →
      exec .loop s = .next { s with ip := b + 1 }) ∧
    (s.tape.read s.mp = 0 → findBoundary s.prog s.ip .forward = .error .unbalancedBrackets →
      ∃ t, exec .loop s = .next t ∧ TakesFault .unbalancedBrackets s t)

/-- R64, `]`. -/
def Obligations.EndloopRepeatsOnANonzeroCell : Prop :=
  (∀ ws, decode ws (Char.ofNat 0x5D) = .endloop) ∧
  ∀ s : State, s.mp < s.cfg.tapeSize →
    (s.tape.read s.mp = 0 → exec .endloop s = .next { s with ip := s.ip + 1 }) ∧
    (∀ b, s.tape.read s.mp ≠ 0 → findBoundary s.prog s.ip .backward = .ok b →
      exec .endloop s = .next { s with ip := b + 1 }) ∧
    (s.tape.read s.mp ≠ 0 → findBoundary s.prog s.ip .backward = .error .unbalancedBrackets →
      ∃ t, exec .endloop s = .next t ∧ TakesFault .unbalancedBrackets s t)

/-- R65, whitespace: the same for every character of `WS`, and nothing but `IP` changes. -/
def Obligations.WhitespaceOnlyAdvances : Prop :=
  (∀ (ws : List Char) (c : Char), c ∈ ws → c ∉ opcodeChars → decode ws c = .nop c) ∧
  ∀ (c : Char) (s : State), exec (.nop c) s = .next { s with ip := s.ip + 1 }

/-- R66, any other character: it raises `UnexpectedCharInCode` with the character itself and does not advance. -/
def Obligations.InvalidCharacterRaisesItsFault : Prop :=
  (∀ (ws : List Char) (c : Char), c ∉ ws → c ∉ opcodeChars → decode ws c = .invalid c) ∧
  ∀ (c : Char) (s : State), ∃ t, exec (.invalid c) s = .next t ∧ TakesFault (.unexpectedCharInCode c) s t

/-- R66 (reachability): under `CHAR_CHECK = EAGER` the run phase never meets an invalid character. -/
def Obligations.EagerRunsMeetNoInvalidCharacter : Prop :=
  ∀ (s : State) (c : Char), s.Inv → s.cfg.charCheck = .eager → s.status = .run →
    s.prog[s.ip]? = some c → decode s.cfg.ws c ≠ .invalid c

/-- R7, R31: with `MP` off the tape (no run reaches this, R13) an instruction that touches its cell stops by name; the
stop is the model's (log 5). -/
def Obligations.CellAccessOffTheTapeStops : Prop :=
  ∀ s : State, s.cfg.tapeSize ≤ s.mp →
    exec .inc s = .fault .noSuchCell ∧ exec .dec s = .fault .noSuchCell ∧
    exec .output s = .fault .noSuchCell ∧ exec .loop s = .fault .noSuchCell ∧
    exec .endloop s = .fault .noSuchCell ∧
    (s.ic < s.input.length → exec .input s = .fault .noSuchCell)

/-- The frame of the forms that store nothing (R27): every cell, the launch and `IC` are unchanged, `MP` but for `>` and
`<`; without a fault `STATUS` and `ERR` are unchanged and `OUT` but for `.`. -/
def Obligations.NonStoringInstructionsFrame : Prop :=
  ∀ (i : Instr) (s t : State), i ≠ .inc → i ≠ .dec → i ≠ .input → exec i s = .next t →
    SameLaunch s t ∧ CellsUnchanged s t ∧ t.ic = s.ic ∧
    (i ≠ .right → i ≠ .left → t.mp = s.mp) ∧
    ((NoFault s t ∧ (i ≠ .output → t.out = s.out)) ∨ ∃ e, TakesFault e s t)

/-- The frame of the storing instructions `+`, `-`, `,` (R14, R27): they store to the one cell at the address their
meaning uses, every other cell, the launch and `MP` are unchanged, `IC` but for `,`; without a fault `OUT`, `STATUS` and
`ERR` are unchanged. -/
def Obligations.StoringInstructionsFrame : Prop :=
  ∀ (i : Instr) (s t : State), (i = .inc ∨ i = .dec ∨ i = .input) → exec i s = .next t →
    SameLaunch s t ∧ CellsUnchangedBut (currentAddr s) s t ∧ t.mp = s.mp ∧
    (i ≠ .input → t.ic = s.ic) ∧
    ((NoFault s t ∧ t.out = s.out) ∨ ∃ e, TakesFault e s t)

/-- R60: `-` undoes `+` and `+` undoes `-` for every cell value, the wrap included. On a canonical tape the whole state
but for `IP` is the one before. -/
def Obligations.IncAndDecUndoEachOther : Prop :=
  ∀ s t u : State, s.tape.wf = true →
    (exec .inc s = .next t → exec .dec t = .next u → u = { s with ip := s.ip + 2 }) ∧
    (exec .dec s = .next t → exec .inc t = .next u → u = { s with ip := s.ip + 2 })

/-! ### Whole-machine rules -/

/-- R19, R23, R36: no step changes `PROG`, `IN` or the configuration, so every fetch and scan of a position sees the same
character for the whole run. -/
def Obligations.StepsNeverChangeTheLaunch : Prop :=
  ∀ s t : State, step s = .next t → SameLaunch s t

/-- R13: `MP` changes only by exactly one, up at a `>` and down at a `<`. -/
def Obligations.PointerMovesByOneOrStays : Prop :=
  ∀ s t : State, step s = .next t →
    t.mp = s.mp ∨ (s.prog[s.ip]? = some '>' ∧ t.mp = s.mp + 1) ∨ (s.prog[s.ip]? = some '<' ∧ t.mp + 1 = s.mp)

/-- R14: a cell changes only at index `MP`, and only at a `+`, `-` or `,`. -/
def Obligations.CellsChangeOnlyAtThePointer : Prop :=
  ∀ (s t : State) (a : Nat), step s = .next t → t.tape.read a ≠ s.tape.read a →
    a = s.mp ∧ (s.prog[s.ip]? = some '+' ∨ s.prog[s.ip]? = some '-' ∨ s.prog[s.ip]? = some ',')

/-- R15: `IC` only ever increases, by exactly one, only at a `,` that delivers the byte at `IC` to the current cell. -/
def Obligations.InputCursorOnlyMovesForward : Prop :=
  ∀ s t : State, step s = .next t →
    t.ic = s.ic ∨
    (s.prog[s.ip]? = some ',' ∧ t.ic = s.ic + 1 ∧ s.input[s.ic]? = some (t.tape.read s.mp))

/-- R16, R86: `OUT` is only ever appended to, by a `.`, one byte, the current cell, or discarded by a fault. -/
def Obligations.OutputGrowsByOneByteOrIsDiscarded : Prop :=
  ∀ s t : State, step s = .next t →
    t.out = s.out ∨
    (s.prog[s.ip]? = some '.' ∧ t.out = s.out ++ [s.tape.read s.mp]) ∨
    (t.out = [] ∧ t.status = .faulted)

/-- R103: an instruction that takes no fault advances `IP` by one, or is a `[` on a zero cell going behind a `]` after it,
or a `]` on a nonzero cell going behind a `[` before it. -/
def Obligations.OnlyBracketsTransferControl : Prop :=
  ∀ s t : State, s.status = .run → s.ip < s.prog.length → step s = .next t → t.status ≠ .faulted →
    t.ip = s.ip + 1 ∨
    (s.prog[s.ip]? = some '[' ∧ s.tape.read s.mp = 0 ∧
      ∃ b, s.ip < b ∧ s.prog[b]? = some ']' ∧ t.ip = b + 1) ∨
    (s.prog[s.ip]? = some ']' ∧ s.tape.read s.mp ≠ 0 ∧
      ∃ b, b < s.ip ∧ s.prog[b]? = some '[' ∧ t.ip = b + 1)

/-- R83: which fault each instruction, and the validate step of this hardware's bracket policy, can raise. -/
def Obligations.EachInstructionRaisesOnlyItsOwnFault : Prop :=
  (∀ (i : Instr) (s t : State), s.err = none → exec i s = .next t →
    t.err = none ∨
    ((i = .right ∨ i = .left) ∧ t.err = some .outOfBoundsAccess) ∨
    (i = .input ∧ t.err = some .unexpectedEndOfInput) ∨
    ((i = .loop ∨ i = .endloop) ∧ t.err = some .unbalancedBrackets) ∨
    (∃ c, i = .invalid c ∧ t.err = some (.unexpectedCharInCode c))) ∧
  (∀ s t : State, s.status = .validate → s.cfg.bracketCheck = .lazy → s.err = none → step s = .next t →
    t.err = none ∨ ∃ c ∈ s.prog, t.err = some (.unexpectedCharInCode c))

/-- R84, R85, R86: a step that ends `FAULTED` is one fault entry from the state before it: precise, the output
discarded. -/
def Obligations.FaultsArePreciseAndDiscardOutput : Prop :=
  ∀ s t : State, step s = .next t → t.status = .faulted → ∃ e, TakesFault e s t

/-- R18: the two fields of `ERR`, their codes and bits; 0 at reset; written only by fault entry; written once: with a
fault recorded no step is left. -/
def Obligations.ErrRecordsKindAndCharacter : Prop :=
  (∀ s : State,
    (s.err = none → errKind s = 0 ∧ errChar s = 0) ∧
    (∀ c, s.err = some (.unexpectedCharInCode c) → errKind s = 1 ∧ (errChar s).toNat = c.toNat) ∧
    (s.err = some .unexpectedEndOfInput → errKind s = 2 ∧ errChar s = 0) ∧
    (s.err = some .unbalancedBrackets → errKind s = 3 ∧ errChar s = 0) ∧
    (s.err = some .outOfBoundsAccess → errKind s = 4 ∧ errChar s = 0) ∧
    (errWord s).extractLsb' 21 3 = errKind s ∧ (errWord s).extractLsb' 0 21 = errChar s ∧
    errWord (relaunch s) = 0) ∧
  (∀ s t : State, step s = .next t → t.err ≠ s.err → ∃ e, TakesFault e s t) ∧
  (∀ s t : State, s.Inv → errKind s ≠ 0 → step s ≠ .next t)

/-- R96: a result exists only when `STATUS` is terminal, and is `Ok(OUT)` or `Err` with the recorded fault. -/
def Obligations.ResultExistsOnlyAtTheEnd : Prop :=
  ∀ s : State, s.Inv →
    (s.result = none ↔ ¬ s.Terminal) ∧
    (s.status = .halted → s.result = some (.ok s.out)) ∧
    (s.status = .faulted → ∃ e, s.err = some e ∧ s.result = some (.err e))

/-- R78: under `CHAR_CHECK = EAGER` a program that holds an invalid character anywhere never raises any other fault, never
runs an instruction and never produces output, whatever its input. -/
def Obligations.InvalidProgramsEndWithTheirCharacterFault : Prop :=
  ∀ (cfg : Config) (prog : List Char) (input : List Byte) (c : Char) (n : Nat) (t : State),
    cfg.charCheck = .eager → c ∈ prog → decode cfg.ws c = .invalid c →
    Host.Core.run Sys2Proof.core (n + 1) (State.launch cfg prog input) = .next t →
    t.out = [] ∧ t.ip = 0 ∧ t.ic = 0 ∧
    ∃ d, firstInvalid cfg.ws prog = some d ∧ t.result = some (.err (.unexpectedCharInCode d))

/-- D4, D5: the check policies agree on every program with no invalid character and balanced brackets: under any other
values the same step is taken. The eager bracket check is the model's reading of D5 (log 10). -/
def Obligations.CheckPoliciesAgreeOnSoundPrograms : Prop :=
  ∀ (s : State) (charCheck bracketCheck : CheckTime),
    firstInvalid s.cfg.ws s.prog = none → bracketsBalanced s.prog = true →
    (∀ t, step s = .next t → step (s.withChecks charCheck bracketCheck) = .next (t.withChecks charCheck bracketCheck)) ∧
    (∀ f, step s = .fault f → step (s.withChecks charCheck bracketCheck) = .fault f)

/-- The pipeline's probe (log 3): the next step after it runs the decoded instruction, and it changes only `PROG` and
`STATUS`. -/
def Obligations.FetchWordRunsNext : Prop :=
  ∀ (s : State) (nbits w : Nat) (i : Instr), s.cfg.ws = Config.default.ws → decodeTableWord nbits w = some i →
    step (s.withFetchWord nbits w) = exec i (s.withFetchWord nbits w) ∧
    s.withFetchWord nbits w = { s with prog := (s.withFetchWord nbits w).prog, status := .run }

/-! ### The bracket matcher (46_bracket_matcher.md) -/

/-- R68, R70: `FindBoundary` is the rule's loop started with the depth counter at 0, and `scanFrom` is one iteration of
it at position `pos` with the counter `depth`, signs and tests as written. -/
def Obligations.MatcherIsTheLoopOfTheRule : Prop :=
  Direction.forward.sign = 1 ∧ Direction.backward.sign = -1 ∧
  (∀ (prog : List Char) (start : Int) (dir : Direction), findBoundary prog start dir = scanFrom prog dir 0 start) ∧
  (∀ (prog : List Char) (dir : Direction) (depth pos : Int), pos < 0 ∨ (prog.length : Int) ≤ pos →
    scanFrom prog dir depth pos = .error .unbalancedBrackets) ∧
  (∀ (prog : List Char) (dir : Direction) (depth depth' : Int) (pos : Nat) (c : Char), prog[pos]? = some c →
    depth' = (if c = '[' then depth + dir.sign else if c = ']' then depth - dir.sign else depth) →
    scanFrom prog dir depth pos =
      if depth' < 0 then .error .unbalancedBrackets
      else if depth' = 0 then .ok pos
      else scanFrom prog dir depth' (pos + dir.sign))

/-- R67: the matcher returns a position of the program or raises `UnbalancedBrackets`, and no other fault. -/
def Obligations.MatcherReturnsAPositionOrUnbalanced : Prop :=
  ∀ (prog : List Char) (start : Int) (dir : Direction),
    (∃ b, b < prog.length ∧ findBoundary prog start dir = .ok b) ∨
    findBoundary prog start dir = .error .unbalancedBrackets

/-- R75 (b): a proper forward call returns a `]` after its `[`, a proper backward call a `[` before its `]`. -/
def Obligations.ProperCallsReturnTheOtherBracket : Prop :=
  ∀ (prog : List Char) (p q : Nat),
    (prog[p]? = some '[' → findBoundary prog p .forward = .ok q → p < q ∧ prog[q]? = some ']') ∧
    (prog[p]? = some ']' → findBoundary prog p .backward = .ok q → q < p ∧ prog[q]? = some '[')

/-- R75 (c): matching is symmetric, for any program. -/
def Obligations.MatchingIsSymmetric : Prop :=
  ∀ (prog : List Char) (p q : Nat),
    (prog[p]? = some '[' → findBoundary prog p .forward = .ok q → findBoundary prog q .backward = .ok p) ∧
    (prog[q]? = some ']' → findBoundary prog q .backward = .ok p → findBoundary prog p .forward = .ok q)

/-- R75 (e): a forward call from a `[` returns the end of the shortest segment that holds equally many `[` and `]`, and
fails exactly when there is none. -/
def Obligations.ForwardBoundaryIsTheShortestEvenSegment : Prop :=
  ∀ (prog : List Char) (p : Nat), prog[p]? = some '[' →
    (∀ q, findBoundary prog p .forward = .ok q ↔
      (p ≤ q ∧ q < prog.length ∧ EvenSegment prog p q ∧ ∀ r, p ≤ r → r < q → ¬ EvenSegment prog p r)) ∧
    (findBoundary prog p .forward = .error .unbalancedBrackets ↔
      ∀ r, p ≤ r → r < prog.length → ¬ EvenSegment prog p r)

/-- R75 (e), mirrored: a backward call from a `]`. -/
def Obligations.BackwardBoundaryIsTheShortestEvenSegment : Prop :=
  ∀ (prog : List Char) (p : Nat), prog[p]? = some ']' →
    (∀ q, findBoundary prog p .backward = .ok q ↔
      (q ≤ p ∧ EvenSegment prog q p ∧ ∀ r, q < r → r ≤ p → ¬ EvenSegment prog r p)) ∧
    (findBoundary prog p .backward = .error .unbalancedBrackets ↔ ∀ r, r ≤ p → ¬ EvenSegment prog r p)

/-- R76: the improper calls: outside the program, from the bracket of the other direction, from a character that is no
bracket. -/
def Obligations.ImproperMatcherCalls : Prop :=
  (∀ (prog : List Char) (start : Int) (dir : Direction), start < 0 ∨ (prog.length : Int) ≤ start →
    findBoundary prog start dir = .error .unbalancedBrackets) ∧
  (∀ (prog : List Char) (p : Nat), prog[p]? = some ']' →
    findBoundary prog p .forward = .error .unbalancedBrackets) ∧
  (∀ (prog : List Char) (p : Nat), prog[p]? = some '[' →
    findBoundary prog p .backward = .error .unbalancedBrackets) ∧
  (∀ (prog : List Char) (p : Nat) (c : Char) (dir : Direction), prog[p]? = some c → c ≠ '[' → c ≠ ']' →
    findBoundary prog p dir = .ok p)

/-- S7, D5: in a program whose brackets are balanced every bracket has its match, so no step of a run raises
`UnbalancedBrackets`. Balance is the model's `bracketsBalanced` (log 10). -/
def Obligations.BalancedProgramsNeverRaiseUnbalanced : Prop :=
  (∀ (prog : List Char) (p : Nat), bracketsBalanced prog = true →
    (prog[p]? = some '[' → ∃ q, findBoundary prog p .forward = .ok q) ∧
    (prog[p]? = some ']' → ∃ q, findBoundary prog p .backward = .ok q)) ∧
  (∀ s t : State, bracketsBalanced s.prog = true → s.err ≠ some .unbalancedBrackets → step s = .next t →
    t.err ≠ some .unbalancedBrackets)
end

