-- ==== Sys2Proof/Laws/Decode.lean ====
section
/-! SUPPORT. Small facts about characters, codes and the decoder. -/

namespace Sys2Proof

theorem char_lt (c : Char) : c.toNat < 2 ^ 21 := by
  have h : Nat.isValidChar c.toNat := c.valid
  rcases h with h | h <;> omega

/-- Every character's code fits the 21 bits it is stored in (R38). -/
theorem charWord_toNat (c : Char) : (charWord c).toNat = c.toNat := by
  rw [charWord, BitVec.toNat_ofNat, Nat.mod_eq_of_lt (char_lt c)]

/-- The code of a character names that character. -/
theorem charOfCode_toNat (c : Char) : charOfCode c.toNat = .ok c := by
  have hv : Nat.isValidChar c.toNat := c.valid
  rw [charOfCode, if_neg (Nat.not_le.mpr (char_lt c)), if_pos hv, Char.ofNat_toNat]

/-- A decoded character is the character it was decoded from. -/
theorem decode_opcode_or_rest (ws : List Char) (c : Char) :
    c ∈ opcodeChars ∨ (c ∉ opcodeChars ∧ decode ws c = if c ∈ ws then .nop c else .invalid c) := by
  by_cases h : c ∈ opcodeChars
  · exact .inl h
  · refine .inr ⟨h, ?_⟩
    simp only [opcodeChars, List.mem_cons, List.not_mem_nil, or_false, not_or] at h
    simp [decode, h]

end Sys2Proof
end

