-- ==== Sys2Proof/Laws/State.lean ====
section
/-! SUPPORT. One lemma per field per state update of Machine/Ops.lean, so that no proof unfolds a record update. -/

namespace Sys2Proof.Machine

@[simp] theorem outPush_cfg (b : Byte) (s : State) : (outPush b s).cfg = s.cfg := rfl
@[simp] theorem outPush_prog (b : Byte) (s : State) : (outPush b s).prog = s.prog := rfl
@[simp] theorem outPush_input (b : Byte) (s : State) : (outPush b s).input = s.input := rfl
@[simp] theorem outPush_tape (b : Byte) (s : State) : (outPush b s).tape = s.tape := rfl
@[simp] theorem outPush_mp (b : Byte) (s : State) : (outPush b s).mp = s.mp := rfl
@[simp] theorem outPush_ip (b : Byte) (s : State) : (outPush b s).ip = s.ip := rfl
@[simp] theorem outPush_ic (b : Byte) (s : State) : (outPush b s).ic = s.ic := rfl
@[simp] theorem outPush_out (b : Byte) (s : State) : (outPush b s).out = s.out ++ [b] := rfl
@[simp] theorem outPush_status (b : Byte) (s : State) : (outPush b s).status = s.status := rfl
@[simp] theorem outPush_err (b : Byte) (s : State) : (outPush b s).err = s.err := rfl

@[simp] theorem setMp_cfg (a : Nat) (s : State) : (setMp a s).cfg = s.cfg := rfl
@[simp] theorem setMp_prog (a : Nat) (s : State) : (setMp a s).prog = s.prog := rfl
@[simp] theorem setMp_input (a : Nat) (s : State) : (setMp a s).input = s.input := rfl
@[simp] theorem setMp_tape (a : Nat) (s : State) : (setMp a s).tape = s.tape := rfl
@[simp] theorem setMp_mp (a : Nat) (s : State) : (setMp a s).mp = a := rfl
@[simp] theorem setMp_ip (a : Nat) (s : State) : (setMp a s).ip = s.ip := rfl
@[simp] theorem setMp_ic (a : Nat) (s : State) : (setMp a s).ic = s.ic := rfl
@[simp] theorem setMp_out (a : Nat) (s : State) : (setMp a s).out = s.out := rfl
@[simp] theorem setMp_status (a : Nat) (s : State) : (setMp a s).status = s.status := rfl
@[simp] theorem setMp_err (a : Nat) (s : State) : (setMp a s).err = s.err := rfl

@[simp] theorem jump_cfg (t : Nat) (s : State) : (jump t s).cfg = s.cfg := rfl
@[simp] theorem jump_prog (t : Nat) (s : State) : (jump t s).prog = s.prog := rfl
@[simp] theorem jump_input (t : Nat) (s : State) : (jump t s).input = s.input := rfl
@[simp] theorem jump_tape (t : Nat) (s : State) : (jump t s).tape = s.tape := rfl
@[simp] theorem jump_mp (t : Nat) (s : State) : (jump t s).mp = s.mp := rfl
@[simp] theorem jump_ip (t : Nat) (s : State) : (jump t s).ip = t := rfl
@[simp] theorem jump_ic (t : Nat) (s : State) : (jump t s).ic = s.ic := rfl
@[simp] theorem jump_out (t : Nat) (s : State) : (jump t s).out = s.out := rfl
@[simp] theorem jump_status (t : Nat) (s : State) : (jump t s).status = s.status := rfl
@[simp] theorem jump_err (t : Nat) (s : State) : (jump t s).err = s.err := rfl

@[simp] theorem advance_cfg (s : State) : (advance s).cfg = s.cfg := rfl
@[simp] theorem advance_prog (s : State) : (advance s).prog = s.prog := rfl
@[simp] theorem advance_input (s : State) : (advance s).input = s.input := rfl
@[simp] theorem advance_tape (s : State) : (advance s).tape = s.tape := rfl
@[simp] theorem advance_mp (s : State) : (advance s).mp = s.mp := rfl
@[simp] theorem advance_ip (s : State) : (advance s).ip = s.ip + 1 := rfl
@[simp] theorem advance_ic (s : State) : (advance s).ic = s.ic := rfl
@[simp] theorem advance_out (s : State) : (advance s).out = s.out := rfl
@[simp] theorem advance_status (s : State) : (advance s).status = s.status := rfl
@[simp] theorem advance_err (s : State) : (advance s).err = s.err := rfl

@[simp] theorem setStatus_cfg (st : Status) (s : State) : (setStatus st s).cfg = s.cfg := rfl
@[simp] theorem setStatus_prog (st : Status) (s : State) : (setStatus st s).prog = s.prog := rfl
@[simp] theorem setStatus_input (st : Status) (s : State) : (setStatus st s).input = s.input := rfl
@[simp] theorem setStatus_tape (st : Status) (s : State) : (setStatus st s).tape = s.tape := rfl
@[simp] theorem setStatus_mp (st : Status) (s : State) : (setStatus st s).mp = s.mp := rfl
@[simp] theorem setStatus_ip (st : Status) (s : State) : (setStatus st s).ip = s.ip := rfl
@[simp] theorem setStatus_ic (st : Status) (s : State) : (setStatus st s).ic = s.ic := rfl
@[simp] theorem setStatus_out (st : Status) (s : State) : (setStatus st s).out = s.out := rfl
@[simp] theorem setStatus_status (st : Status) (s : State) : (setStatus st s).status = st := rfl
@[simp] theorem setStatus_err (st : Status) (s : State) : (setStatus st s).err = s.err := rfl

@[simp] theorem halt_cfg (s : State) : (halt s).cfg = s.cfg := rfl
@[simp] theorem halt_prog (s : State) : (halt s).prog = s.prog := rfl
@[simp] theorem halt_input (s : State) : (halt s).input = s.input := rfl
@[simp] theorem halt_tape (s : State) : (halt s).tape = s.tape := rfl
@[simp] theorem halt_mp (s : State) : (halt s).mp = s.mp := rfl
@[simp] theorem halt_ip (s : State) : (halt s).ip = s.ip := rfl
@[simp] theorem halt_ic (s : State) : (halt s).ic = s.ic := rfl
@[simp] theorem halt_out (s : State) : (halt s).out = s.out := rfl
@[simp] theorem halt_status (s : State) : (halt s).status = .halted := rfl
@[simp] theorem halt_err (s : State) : (halt s).err = s.err := rfl

@[simp] theorem raise_cfg (e : ErrKind) (s : State) : (raise e s).cfg = s.cfg := rfl
@[simp] theorem raise_prog (e : ErrKind) (s : State) : (raise e s).prog = s.prog := rfl
@[simp] theorem raise_input (e : ErrKind) (s : State) : (raise e s).input = s.input := rfl
@[simp] theorem raise_tape (e : ErrKind) (s : State) : (raise e s).tape = s.tape := rfl
@[simp] theorem raise_mp (e : ErrKind) (s : State) : (raise e s).mp = s.mp := rfl
@[simp] theorem raise_ip (e : ErrKind) (s : State) : (raise e s).ip = s.ip := rfl
@[simp] theorem raise_ic (e : ErrKind) (s : State) : (raise e s).ic = s.ic := rfl
@[simp] theorem raise_out (e : ErrKind) (s : State) : (raise e s).out = [] := rfl
@[simp] theorem raise_status (e : ErrKind) (s : State) : (raise e s).status = .faulted := rfl
@[simp] theorem raise_err (e : ErrKind) (s : State) : (raise e s).err = some e := rfl

@[simp] theorem relaunch_cfg (s : State) : (relaunch s).cfg = s.cfg := rfl
@[simp] theorem relaunch_prog (s : State) : (relaunch s).prog = s.prog := rfl
@[simp] theorem relaunch_input (s : State) : (relaunch s).input = s.input := rfl
@[simp] theorem relaunch_tape (s : State) : (relaunch s).tape = [] := rfl
@[simp] theorem relaunch_mp (s : State) : (relaunch s).mp = 0 := rfl
@[simp] theorem relaunch_ip (s : State) : (relaunch s).ip = 0 := rfl
@[simp] theorem relaunch_ic (s : State) : (relaunch s).ic = 0 := rfl
@[simp] theorem relaunch_out (s : State) : (relaunch s).out = [] := rfl
@[simp] theorem relaunch_status (s : State) : (relaunch s).status = .validate := rfl
@[simp] theorem relaunch_err (s : State) : (relaunch s).err = none := rfl

@[simp] theorem State.launch_cfg (cfg : Config) (prog : List Char) (input : List Byte) : (State.launch cfg prog input).cfg = cfg := rfl
@[simp] theorem State.launch_prog (cfg : Config) (prog : List Char) (input : List Byte) : (State.launch cfg prog input).prog = prog := rfl
@[simp] theorem State.launch_input (cfg : Config) (prog : List Char) (input : List Byte) : (State.launch cfg prog input).input = input := rfl
@[simp] theorem State.launch_tape (cfg : Config) (prog : List Char) (input : List Byte) : (State.launch cfg prog input).tape = [] := rfl
@[simp] theorem State.launch_mp (cfg : Config) (prog : List Char) (input : List Byte) : (State.launch cfg prog input).mp = 0 := rfl
@[simp] theorem State.launch_ip (cfg : Config) (prog : List Char) (input : List Byte) : (State.launch cfg prog input).ip = 0 := rfl
@[simp] theorem State.launch_ic (cfg : Config) (prog : List Char) (input : List Byte) : (State.launch cfg prog input).ic = 0 := rfl
@[simp] theorem State.launch_out (cfg : Config) (prog : List Char) (input : List Byte) : (State.launch cfg prog input).out = [] := rfl
@[simp] theorem State.launch_status (cfg : Config) (prog : List Char) (input : List Byte) : (State.launch cfg prog input).status = .validate := rfl
@[simp] theorem State.launch_err (cfg : Config) (prog : List Char) (input : List Byte) : (State.launch cfg prog input).err = none := rfl

end Sys2Proof.Machine
end

