-- ==== Sys2Proof/Laws/Matcher.lean ====
section
/-! SUPPORT. What the scan of the bracket matcher can do, and what the jump built on it can do. -/

namespace Sys2Proof.Machine

@[simp] theorem depthChange_open (dir : Direction) : depthChange dir '[' = dir.sign := if_pos rfl

@[simp] theorem depthChange_close (dir : Direction) : depthChange dir ']' = -dir.sign := by
  simp [depthChange]

theorem depthChange_other (dir : Direction) (c : Char) (ho : c ≠ '[') (hc : c ≠ ']') : depthChange dir c = 0 := by
  simp [depthChange, ho, hc]

/-- The scan raises one fault only. -/
theorem scan_error {dir : Direction} {depth : Int} {l : List (Char × Nat)} {e : ErrKind}
    (h : scan dir depth l = .error e) : e = .unbalancedBrackets := by
  induction l generalizing depth with
  | nil => cases h; rfl
  | cons x l ih =>
    obtain ⟨c, pos⟩ := x
    simp only [scan] at h
    split at h
    · cases h; rfl
    · split at h
      · cases h
      · exact ih h

/-- The scan answers a position it visited. -/
theorem scan_ok {dir : Direction} {depth : Int} {l : List (Char × Nat)} {b : Nat} (h : scan dir depth l = .ok b) :
    ∃ c, (c, b) ∈ l := by
  induction l generalizing depth with
  | nil => cases h
  | cons x l ih =>
    obtain ⟨c, pos⟩ := x
    simp only [scan] at h
    split at h
    · cases h
    · split at h
      · cases h; exact ⟨c, by simp⟩
      · obtain ⟨d, hd⟩ := ih h
        exact ⟨d, by simp [hd]⟩

/-- A scan visits positions of the program, each with the character standing there. -/
theorem scanPath_mem {prog : List Char} {dir : Direction} {pos : Int} {c : Char} {b : Nat}
    (h : (c, b) ∈ scanPath prog dir pos) : prog[b]? = some c := by
  have hmem : (c, b) ∈ prog.zipIdx := by
    unfold scanPath at h
    split at h
    · cases h
    · cases dir with
      | forward => exact List.mem_of_mem_drop h
      | backward => exact List.mem_of_mem_take (List.mem_reverse.mp h)
  exact List.mem_zipIdx_iff_getElem?.mp hmem

theorem scanPath_outside {prog : List Char} {dir : Direction} {pos : Int}
    (h : pos < 0 ∨ (prog.length : Int) ≤ pos) : scanPath prog dir pos = [] := if_pos h

/-- The first position a forward scan visits, and those after it. -/
theorem scanPath_forward_cons {prog : List Char} {p : Nat} {c : Char} (h : prog[p]? = some c) :
    scanPath prog .forward p = (c, p) :: scanPath prog .forward (p + 1 : Nat) := by
  obtain ⟨hp, hc⟩ := List.getElem?_eq_some_iff.mp h
  have hin : ¬((p : Int) < 0 ∨ (prog.length : Int) ≤ p) := by omega
  have hhead : prog.zipIdx.drop p = (c, p) :: prog.zipIdx.drop (p + 1) := by
    rw [List.drop_eq_getElem_cons (by simpa using hp)]; simp [hc]
  unfold scanPath
  rw [if_neg hin]
  show prog.zipIdx.drop ((p : Nat) : Int).toNat = _
  rw [Int.toNat_natCast, hhead]
  split
  · next hout =>
    have : prog.zipIdx.drop (p + 1) = [] := by rw [List.drop_eq_nil_iff]; simp; omega
    rw [this]
  · rw [Int.toNat_natCast]

/-- The first position a backward scan visits, and those before it. -/
theorem scanPath_backward_cons {prog : List Char} {p : Nat} {c : Char} (h : prog[p]? = some c) :
    scanPath prog .backward p = (c, p) :: scanPath prog .backward ((p : Int) - 1) := by
  obtain ⟨hp, hc⟩ := List.getElem?_eq_some_iff.mp h
  have hin : ¬((p : Int) < 0 ∨ (prog.length : Int) ≤ p) := by omega
  have hhead : (prog.zipIdx.take (p + 1)).reverse = (c, p) :: (prog.zipIdx.take p).reverse := by
    rw [List.take_succ_eq_append_getElem (by simpa using hp)]; simp [hc]
  unfold scanPath
  rw [if_neg hin]
  show (prog.zipIdx.take (((p : Nat) : Int).toNat + 1)).reverse = _
  rw [Int.toNat_natCast, hhead]
  split
  · next hout =>
    have : p = 0 := by omega
    simp [this]
  · next hin' =>
    have : ((p : Int) - 1).toNat + 1 = p := by omega
    rw [this]

/-- What a taken jump can end in. -/
theorem jumpPastBoundary_cases (dir : Direction) (s : State) :
    (∃ b, findBoundary s.prog s.ip dir = .ok b ∧ jumpPastBoundary dir s = jump (b + 1) s) ∨
    (findBoundary s.prog s.ip dir = .error .unbalancedBrackets ∧
      jumpPastBoundary dir s = raise .unbalancedBrackets s) := by
  unfold jumpPastBoundary
  cases h : findBoundary s.prog s.ip dir with
  | ok b => exact .inl ⟨b, rfl, rfl⟩
  | error e =>
    have he := scan_error h
    exact .inr ⟨by rw [he], by rw [he]⟩

end Sys2Proof.Machine
end

