-- ==== Sys2Proof/Laws/Memory.lean ====
section
/-! SUPPORT. The laws of the tape: read after write (R33), and that a write keeps the canonical form. -/

namespace Sys2Proof.Machine

@[simp] theorem Memory.read_nil (a : Nat) : Memory.read [] a = Memory.unlisted := rfl

theorem Memory.read_cons (c : Host.Cell) (m : Memory) (a : Nat) :
    Memory.read (c :: m) a = if a = c.1 then c.2 else Memory.read m a := rfl

theorem Memory.erase_cons_same (c : Host.Cell) (m : Memory) (a : Nat) (h : c.1 = a) :
    Memory.erase (c :: m) a = Memory.erase m a := by simp [Memory.erase, h]

theorem Memory.erase_cons_other (c : Host.Cell) (m : Memory) (a : Nat) (h : c.1 ≠ a) :
    Memory.erase (c :: m) a = c :: Memory.erase m a := by simp [Memory.erase, h]

@[simp] theorem Memory.read_erase_same (m : Memory) (a : Nat) : (m.erase a).read a = Memory.unlisted := by
  induction m with
  | nil => rfl
  | cons c m ih =>
    by_cases h : c.1 = a
    · rw [Memory.erase_cons_same c m a h, ih]
    · rw [Memory.erase_cons_other c m a h, Memory.read_cons, if_neg (Ne.symm h), ih]

theorem Memory.read_erase_other (m : Memory) (a b : Nat) (h : b ≠ a) : (m.erase a).read b = m.read b := by
  induction m with
  | nil => rfl
  | cons c m ih =>
    by_cases hc : c.1 = a
    · rw [Memory.erase_cons_same c m a hc, ih, Memory.read_cons, if_neg (hc ▸ h)]
    · rw [Memory.erase_cons_other c m a hc, Memory.read_cons, Memory.read_cons, ih]

theorem Memory.read_insert_other (m : Memory) (a b : Nat) (v : Byte) (h : b ≠ a) :
    (m.insert a v).read b = m.read b := by
  induction m with
  | nil => simp [Memory.insert, Memory.read_cons, h]
  | cons c m ih =>
    simp only [Memory.insert]
    split
    · simp [Memory.read_cons, h]
    · simp only [Memory.read_cons, ih]

theorem Memory.read_insert_same (m : Memory) (a : Nat) (v : Byte) (h : ∀ c ∈ m, c.1 ≠ a) :
    (m.insert a v).read a = v := by
  induction m with
  | nil => simp [Memory.insert, Memory.read_cons]
  | cons c m ih =>
    simp only [Memory.insert]
    split
    · simp [Memory.read_cons]
    · rw [Memory.read_cons, if_neg (Ne.symm (h c (by simp)))]
      exact ih fun d hd => h d (by simp [hd])

/-- A cell reads as the value last written to it, whatever the list. -/
@[simp] theorem Memory.read_write_same (m : Memory) (a : Nat) (v : Byte) : (m.write a v).read a = v := by
  unfold Memory.write
  split
  · next h => rw [Memory.read_erase_same, h]
  · exact Memory.read_insert_same _ a v fun c hc => by simpa [Memory.erase] using (List.mem_filter.mp hc).2

/-- A write leaves every other cell alone. -/
theorem Memory.read_write_other (m : Memory) (a b : Nat) (v : Byte) (h : b ≠ a) :
    (m.write a v).read b = m.read b := by
  unfold Memory.write
  split
  · exact Memory.read_erase_other m a b h
  · rw [Memory.read_insert_other _ a b v h, Memory.read_erase_other m a b h]

theorem Memory.wfFrom_cons (lo : Nat) (c : Host.Cell) (m : Memory) :
    Memory.wfFrom lo (c :: m) = true ↔ lo ≤ c.1 ∧ c.2 ≠ Memory.unlisted ∧ Memory.wfFrom (c.1 + 1) m = true := by
  simp [Memory.wfFrom, and_assoc]

theorem Memory.wfFrom_weaken {m : Memory} {lo lo' : Nat} (hle : lo' ≤ lo) (h : Memory.wfFrom lo m = true) :
    Memory.wfFrom lo' m = true := by
  cases m with
  | nil => rfl
  | cons c m => rw [Memory.wfFrom_cons] at h ⊢; exact ⟨by omega, h.2⟩

theorem Memory.erase_wfFrom {m : Memory} {lo : Nat} (a : Nat) (h : Memory.wfFrom lo m = true) :
    Memory.wfFrom lo (m.erase a) = true := by
  induction m generalizing lo with
  | nil => rfl
  | cons c m ih =>
    rw [Memory.wfFrom_cons] at h
    have hrest : Memory.wfFrom (c.1 + 1) (Memory.erase m a) = true := ih h.2.2
    by_cases hc : c.1 = a
    · rw [Memory.erase_cons_same c m a hc]; exact Memory.wfFrom_weaken (by omega) hrest
    · rw [Memory.erase_cons_other c m a hc, Memory.wfFrom_cons]; exact ⟨h.1, h.2.1, hrest⟩

theorem Memory.insert_wfFrom {m : Memory} {lo a : Nat} {v : Byte} (ha : lo ≤ a) (hv : v ≠ Memory.unlisted)
    (hne : ∀ c ∈ m, c.1 ≠ a) (h : Memory.wfFrom lo m = true) : Memory.wfFrom lo (m.insert a v) = true := by
  induction m generalizing lo with
  | nil => simp [Memory.insert, ha, hv, Memory.wfFrom]
  | cons c m ih =>
    rw [Memory.wfFrom_cons] at h
    have hc : c.1 ≠ a := hne c (by simp)
    simp only [Memory.insert]
    split
    · rw [Memory.wfFrom_cons, Memory.wfFrom_cons]; exact ⟨ha, hv, by omega, h.2⟩
    · rw [Memory.wfFrom_cons]
      exact ⟨h.1, h.2.1, ih (by omega) (fun d hd => hne d (by simp [hd])) h.2.2⟩

/-- Every write keeps the canonical form. -/
theorem Memory.write_wf (m : Memory) (a : Nat) (v : Byte) (h : m.wf = true) : (m.write a v).wf = true := by
  have he : Memory.wfFrom 0 (m.erase a) = true := Memory.erase_wfFrom a h
  unfold Memory.write
  split
  · exact he
  · next hv =>
    exact Memory.insert_wfFrom (Nat.zero_le a) hv
      (fun c hc => by simpa [Memory.erase] using (List.mem_filter.mp hc).2) he

theorem Memory.below_iff (m : Memory) (n : Nat) : m.below n = true ↔ ∀ c ∈ m, c.1 < n := by
  simp only [Memory.below, List.all_eq_true, decide_eq_true_eq]

theorem Memory.mem_insert {m : Memory} {a : Nat} {v : Byte} {c : Host.Cell} (h : c ∈ m.insert a v) :
    c = (a, v) ∨ c ∈ m := by
  induction m with
  | nil => exact .inl (by simpa [Memory.insert] using h)
  | cons d m ih =>
    simp only [Memory.insert] at h
    split at h
    · simpa using h
    · rcases List.mem_cons.mp h with rfl | h
      · exact .inr (by simp)
      · exact (ih h).imp_right fun hm => by simp [hm]

/-- A write to an existing cell lists no cell that does not exist. -/
theorem Memory.write_below (m : Memory) (n a : Nat) (v : Byte) (ha : a < n) (h : m.below n = true) :
    (m.write a v).below n = true := by
  rw [Memory.below_iff] at h ⊢
  intro c hc
  unfold Memory.write at hc
  split at hc
  · exact h c (List.mem_filter.mp hc).1
  · rcases Memory.mem_insert hc with rfl | hm
    · exact ha
    · exact h c (List.mem_filter.mp hm).1

theorem Memory.read_below {m : Memory} {lo b : Nat} (hw : Memory.wfFrom lo m = true) (hb : b < lo) :
    m.read b = Memory.unlisted := by
  induction m generalizing lo with
  | nil => rfl
  | cons c m ih =>
    rw [Memory.wfFrom_cons] at hw
    rw [Memory.read_cons, if_neg (by omega)]
    exact ih hw.2.2 (by omega)

theorem Memory.ext_from {m m' : Memory} {lo : Nat} (h : Memory.wfFrom lo m = true) (h' : Memory.wfFrom lo m' = true)
    (hr : ∀ a, m.read a = m'.read a) : m = m' := by
  induction m generalizing lo m' with
  | nil =>
    cases m' with
    | nil => rfl
    | cons c m' =>
      rw [Memory.wfFrom_cons] at h'
      have := hr c.1
      rw [Memory.read_nil, Memory.read_cons, if_pos rfl] at this
      exact absurd this.symm h'.2.1
  | cons c m ih =>
    rw [Memory.wfFrom_cons] at h
    have hc : c.2 = m'.read c.1 := by simpa [Memory.read_cons] using hr c.1
    cases m' with
    | nil => exact absurd hc h.2.1
    | cons c' m' =>
      rw [Memory.wfFrom_cons] at h'
      have hc' : Memory.read (c :: m) c'.1 = c'.2 := by rw [hr c'.1, Memory.read_cons, if_pos rfl]
      have hk : c.1 = c'.1 := by
        rcases Nat.lt_trichotomy c.1 c'.1 with hlt | heq | hgt
        · rw [Memory.read_cons, if_neg (by omega), Memory.read_below h'.2.2 (by omega)] at hc
          exact absurd hc h.2.1
        · exact heq
        · rw [Memory.read_cons, if_neg (by omega), Memory.read_below h.2.2 (by omega)] at hc'
          exact absurd hc'.symm h'.2.1
      have hv : c.2 = c'.2 := by rw [hc, Memory.read_cons, if_pos hk]
      have hm : m = m' := by
        apply ih h.2.2 (hk ▸ h'.2.2)
        intro a
        by_cases hlt : a < c.1 + 1
        · rw [Memory.read_below h.2.2 hlt, Memory.read_below h'.2.2 (by omega)]
        · have := hr a
          rwa [Memory.read_cons, Memory.read_cons, if_neg (by omega), if_neg (by omega)] at this
      rw [hm, Prod.ext hk hv]

/-- Canonical tapes with equal cells are equal. -/
theorem Memory.eq_of_read_eq (m m' : Memory) (h : m.wf = true) (h' : m'.wf = true)
    (hr : ∀ a, m.read a = m'.read a) : m = m' :=
  Memory.ext_from h h' hr

end Sys2Proof.Machine
end

