-- ==== Sys2Proof/Laws/Ops.lean ====
section
/-! SUPPORT. What each shared operation of Machine/Ops.lean and Machine/Operands.lean can do, said once. -/

namespace Sys2Proof.Machine

theorem memRead_inTape {a : Nat} {s : State} (h : a < s.cfg.tapeSize) : memRead a s = .ok (s.tape.read a) :=
  if_pos h

theorem memRead_offTape {a : Nat} {s : State} (h : s.cfg.tapeSize ≤ a) : memRead a s = .error .noSuchCell :=
  if_neg (by omega)

theorem memWrite_inTape {a : Nat} {s : State} (v : Byte) (h : a < s.cfg.tapeSize) :
    memWrite a v s = .ok { s with tape := s.tape.write a v } := if_pos h

theorem memWrite_offTape {a : Nat} {s : State} (v : Byte) (h : s.cfg.tapeSize ≤ a) :
    memWrite a v s = .error .noSuchCell := if_neg (by omega)

theorem progRead_eq_none_iff (pos : Nat) (s : State) : progRead pos s = none ↔ s.prog.length ≤ pos :=
  List.getElem?_eq_none_iff

theorem inPop_eq_none_iff (s : State) : inPop s = none ↔ s.input.length ≤ s.ic := by
  unfold inPop
  cases h : s.input[s.ic]? with
  | none => simpa using List.getElem?_eq_none_iff.mp h
  | some b => simpa using (List.getElem?_eq_some_iff.mp h).1

theorem inPop_eq_some_iff (s t : State) (b : Byte) :
    inPop s = some (b, t) ↔ s.input[s.ic]? = some b ∧ t = { s with ic := s.ic + 1 } := by
  unfold inPop
  cases h : s.input[s.ic]? with
  | none => simp
  | some c => simp [eq_comm]

/-- With `MP` on the tape, the current cell is read and its value handed on. -/
theorem withCell_inTape {s : State} (k : Byte → StepOutcome) (h : s.mp < s.cfg.tapeSize) :
    withCell s k = k (s.tape.read s.mp) := by
  simp [withCell, currentAddr, memRead_inTape h, orStop]

/-- With `MP` off the tape there is no cell, and the model stops. -/
theorem withCell_offTape {s : State} (k : Byte → StepOutcome) (h : s.cfg.tapeSize ≤ s.mp) :
    withCell s k = .fault .noSuchCell := by
  simp [withCell, currentAddr, memRead_offTape h, orStop]

/-- What an access of the current cell can end in. -/
theorem withCell_cases {s t : State} {k : Byte → StepOutcome} (h : withCell s k = .next t) :
    s.mp < s.cfg.tapeSize ∧ k (s.tape.read s.mp) = .next t := by
  by_cases hlt : s.mp < s.cfg.tapeSize
  · exact ⟨hlt, by rwa [withCell_inTape k hlt] at h⟩
  · rw [withCell_offTape k (by omega)] at h; cases h

theorem storeCell_inTape {s : State} (v : Byte) (h : s.mp < s.cfg.tapeSize) :
    storeCell v s = .next (advance { s with tape := s.tape.write s.mp v }) := by
  simp [storeCell, currentAddr, memWrite_inTape v h, orStop]

theorem storeCell_offTape {s : State} (v : Byte) (h : s.cfg.tapeSize ≤ s.mp) :
    storeCell v s = .fault .noSuchCell := by
  simp [storeCell, currentAddr, memWrite_offTape v h, orStop]

/-- What a store to the current cell can end in. -/
theorem storeCell_cases {s t : State} {v : Byte} (h : storeCell v s = .next t) :
    s.mp < s.cfg.tapeSize ∧ t = advance { s with tape := s.tape.write s.mp v } := by
  by_cases hlt : s.mp < s.cfg.tapeSize
  · exact ⟨hlt, by rw [storeCell_inTape v hlt] at h; cases h; rfl⟩
  · rw [storeCell_offTape v (by omega)] at h; cases h

/-- The character placed at a position is the one fetched there. -/
@[simp] theorem placeChar_get (l : List Char) (n : Nat) (c : Char) : (placeChar l n c)[n]? = some c := by
  induction n generalizing l with
  | zero => cases l <;> rfl
  | succ n ih => cases l <;> simp [placeChar, ih]

/-- Every position before the end of the text keeps its character. -/
theorem placeChar_get_other (l : List Char) (n m : Nat) (c : Char) (hm : m < l.length) (h : m ≠ n) :
    (placeChar l n c)[m]? = l[m]? := by
  induction n generalizing l m with
  | zero =>
    cases l with
    | nil => simp at hm
    | cons x l =>
      cases m with
      | zero => exact absurd rfl h
      | succ m => rfl
  | succ n ih =>
    cases l with
    | nil => simp at hm
    | cons x l =>
      cases m with
      | zero => rfl
      | succ m => simpa [placeChar] using ih l m (by simpa using hm) (by omega)

end Sys2Proof.Machine
end

