-- ==== Sys2Proof/Laws/PerInstr.lean ====
section
/-! SUPPORT. The per-instruction families of LAWS.json. `StoredWord`: the 21-bit word an instruction is stored as names
back the character that is the instruction (R38, R45), one lemma per constructor. -/

namespace Sys2Proof.Laws.StoredWord

/-- The stored word of `i` is the code of the character that is `i`. -/
def Statement (i : Instr) : Prop := charOfCode (encodeWord i).toNat = .ok (encode i)

theorem of_encode (i : Instr) : Statement i := by
  unfold Statement encodeWord
  rw [charWord_toNat, charOfCode_toNat]

theorem right : Statement .right := of_encode _
theorem left : Statement .left := of_encode _
theorem inc : Statement .inc := of_encode _
theorem dec : Statement .dec := of_encode _
theorem output : Statement .output := of_encode _
theorem input : Statement .input := of_encode _
theorem loop : Statement .loop := of_encode _
theorem endloop : Statement .endloop := of_encode _
theorem nop (c : Char) : Statement (.nop c) := of_encode _
theorem invalid (c : Char) : Statement (.invalid c) := of_encode _

end Sys2Proof.Laws.StoredWord
end

