-- ==== Sys2Proof/Laws/Step.lean ====
section
/-! SUPPORT. What each meaning, the validate step and the engine's step can end in, said once (inversion lemmas). -/

namespace Sys2Proof.Machine

theorem execRight_cases {s t : State} (h : execRight s = .next t) :
    (s.mp + 1 = s.cfg.tapeSize ∧ t = raise .outOfBoundsAccess s) ∨
    (s.mp + 1 ≠ s.cfg.tapeSize ∧ t = advance (setMp (s.mp + 1) s)) := by
  unfold execRight at h
  split at h
  · next he => cases h; exact .inl ⟨he, rfl⟩
  · next he => cases h; exact .inr ⟨he, rfl⟩

theorem execLeft_cases {s t : State} (h : execLeft s = .next t) :
    (s.mp = 0 ∧ t = raise .outOfBoundsAccess s) ∨ (s.mp ≠ 0 ∧ t = advance (setMp (s.mp - 1) s)) := by
  unfold execLeft at h
  split at h
  · next he => cases h; exact .inl ⟨he, rfl⟩
  · next he => cases h; exact .inr ⟨he, rfl⟩

theorem execInc_cases {s t : State} (h : execInc s = .next t) : s.mp < s.cfg.tapeSize ∧
    t = advance { s with tape := s.tape.write s.mp (cellInc (s.tape.read s.mp)) } :=
  storeCell_cases (withCell_cases h).2

theorem execDec_cases {s t : State} (h : execDec s = .next t) : s.mp < s.cfg.tapeSize ∧
    t = advance { s with tape := s.tape.write s.mp (cellDec (s.tape.read s.mp)) } :=
  storeCell_cases (withCell_cases h).2

theorem execOutput_cases {s t : State} (h : execOutput s = .next t) :
    s.mp < s.cfg.tapeSize ∧ t = advance (outPush (s.tape.read s.mp) s) := by
  obtain ⟨hlt, hk⟩ := withCell_cases h
  cases hk
  exact ⟨hlt, rfl⟩

theorem execInput_cases {s t : State} (h : execInput s = .next t) :
    (s.input.length ≤ s.ic ∧ t = raise .unexpectedEndOfInput s) ∨
    (∃ b, s.input[s.ic]? = some b ∧ s.mp < s.cfg.tapeSize ∧
      t = advance { s with ic := s.ic + 1, tape := s.tape.write s.mp b }) := by
  unfold execInput at h
  split at h
  · next hn => cases h; exact .inl ⟨(inPop_eq_none_iff s).mp hn, rfl⟩
  · next b u hs =>
    obtain ⟨hb, rfl⟩ := (inPop_eq_some_iff s u b).mp hs
    obtain ⟨hlt, rfl⟩ := storeCell_cases h
    exact .inr ⟨b, hb, hlt, rfl⟩

theorem execLoop_cases {s t : State} (h : execLoop s = .next t) : s.mp < s.cfg.tapeSize ∧
    ((s.tape.read s.mp = 0 ∧ t = jumpPastBoundary .forward s) ∨ (s.tape.read s.mp ≠ 0 ∧ t = advance s)) := by
  obtain ⟨hlt, hk⟩ := withCell_cases h
  refine ⟨hlt, ?_⟩
  split at hk
  · next hz => cases hk; exact .inl ⟨of_decide_eq_true hz, rfl⟩
  · next hz => cases hk; exact .inr ⟨fun h0 => hz (decide_eq_true h0), rfl⟩

theorem execEndloop_cases {s t : State} (h : execEndloop s = .next t) : s.mp < s.cfg.tapeSize ∧
    ((s.tape.read s.mp = 0 ∧ t = advance s) ∨ (s.tape.read s.mp ≠ 0 ∧ t = jumpPastBoundary .backward s)) := by
  obtain ⟨hlt, hk⟩ := withCell_cases h
  refine ⟨hlt, ?_⟩
  split at hk
  · next hz => cases hk; exact .inl ⟨of_decide_eq_true hz, rfl⟩
  · next hz => cases hk; exact .inr ⟨fun h0 => hz (decide_eq_true h0), rfl⟩

/-- What the validate step can end in. -/
theorem validateStep_cases (s : State) :
    (∃ e, charDefect s = some e ∧ validateStep s = raise e s) ∨
    (charDefect s = none ∧ ∃ e, bracketDefect s = some e ∧ validateStep s = raise e s) ∨
    (charDefect s = none ∧ bracketDefect s = none ∧ validateStep s = setStatus .run s) := by
  unfold validateStep
  cases hc : charDefect s with
  | some e => exact .inl ⟨e, rfl, rfl⟩
  | none =>
    cases hb : bracketDefect s with
    | some e => exact .inr (.inl ⟨rfl, e, rfl, rfl⟩)
    | none => exact .inr (.inr ⟨rfl, rfl, rfl⟩)

/-- What a step that answers a next state was: the validate step, the halt, or one decoded instruction. -/
theorem step_cases {s t : State} (h : step s = .next t) :
    (s.status = .validate ∧ t = validateStep s) ∨
    (s.status = .run ∧ s.prog.length ≤ s.ip ∧ t = halt s) ∨
    (s.status = .run ∧ ∃ c, s.prog[s.ip]? = some c ∧ exec (decode s.cfg.ws c) s = .next t) := by
  unfold step at h
  cases hs : s.status with
  | validate => rw [hs] at h; cases h; exact .inl ⟨rfl, rfl⟩
  | run =>
    rw [hs] at h
    change instructionStep s = .next t at h
    unfold instructionStep at h
    split at h
    · next hn => cases h; exact .inr (.inl ⟨rfl, (progRead_eq_none_iff _ _).mp hn, rfl⟩)
    · next c hc => exact .inr (.inr ⟨rfl, c, hc, h⟩)
  | halted => rw [hs] at h; cases h
  | faulted => rw [hs] at h; cases h

end Sys2Proof.Machine
end

