-- ==== Sys2Proof/Tests/Slice0.lean ====
section
/-! SUPPORT. Small tests of one step each, their expected values from 95_test_vectors.md and the examples in the rules;
the WellFormed smoke tests; and for every statement with hypotheses a concrete state and operands that meet them. -/

namespace Sys2Proof.Tests

open Sys2Proof.Machine

/-! ### Helpers -/

/-- A running engine on the default machine: program, input, `IP`, `MP`, `IC`, tape, output. -/
def at_ (prog : String) (input : List Byte) (ip mp ic : Nat) (tape : Memory) (out : List Byte) : State :=
  { State.launch Config.default prog.toList input with
    ip := ip, mp := mp, ic := ic, tape := tape, out := out, status := .run }

/-- The next state, if there is one. -/
def nextState (o : StepOutcome) : Option State :=
  match o with
  | .next t => some t
  | .fault _ => none
  | .refused _ => none

/-- What a test looks at. -/
structure Seen where
  status : Status
  err : Option ErrKind
  ip : Nat
  mp : Nat
  ic : Nat
  out : List Byte
  /-- The cell the test asks about. -/
  cell : Byte
  deriving DecidableEq, Repr

/-- The next state's status, error, `IP`, `MP`, `IC`, output and cell `a`. -/
def view (a : Nat) (o : StepOutcome) : Option Seen :=
  (nextState o).map fun t => ⟨t.status, t.err, t.ip, t.mp, t.ic, t.out, t.tape.read a⟩

/-- The position a matcher call returns. -/
def boundary (prog : String) (start : Int) (dir : Direction) : Option Nat :=
  match findBoundary prog.toList start dir with
  | .ok b => some b
  | .error _ => none

/-! ### WellFormed: every check refuses an ill-formed term -/

theorem test_config_without_cells : Config.wf { Config.default with tapeSize := 0 } = false := by decide
theorem test_config_whitespace_holds_opcode : Config.wf { Config.default with ws := [' ', '+'] } = false := by decide
theorem test_nop_of_no_whitespace : Instr.wf Config.default.ws (.nop 'a') = false := by decide
theorem test_nop_of_an_opcode : Instr.wf ['+'] (.nop '+') = false := by decide
theorem test_invalid_of_an_opcode : Instr.wf Config.default.ws (.invalid '[') = false := by decide
theorem test_invalid_of_whitespace : Instr.wf Config.default.ws (.invalid ' ') = false := by decide

/-! ### Decoding: the words of R40, R42, R43, written out bit by bit -/

theorem test_decode_right : decodeTableWord 24 0b000000000000000111110 = some .right := by decide
theorem test_decode_left : decodeTableWord 24 0b000000000000000111100 = some .left := by decide
theorem test_decode_inc : decodeTableWord 24 0b000000000000000101011 = some .inc := by decide
theorem test_decode_dec : decodeTableWord 24 0b000000000000000101101 = some .dec := by decide
theorem test_decode_output : decodeTableWord 24 0b000000000000000101110 = some .output := by decide
theorem test_decode_input : decodeTableWord 24 0b000000000000000101100 = some .input := by decide
theorem test_decode_loop : decodeTableWord 24 0b000000000000001011011 = some .loop := by decide
theorem test_decode_endloop : decodeTableWord 24 0b000000000000001011101 = some .endloop := by decide
/-- U+2028, LINE SEPARATOR. -/
theorem test_decode_nop : decodeTableWord 24 0b000000010000000101000 = some (.nop (Char.ofNat 0x2028)) := by decide
/-- U+FF0B, FULLWIDTH PLUS SIGN, is not `+` (R40). -/
theorem test_decode_invalid : decodeTableWord 24 0b000001111111100001011 = some (.invalid (Char.ofNat 0xFF0B)) := by
  decide
/-- U+200B, ZERO WIDTH SPACE, is not whitespace (R42). -/
theorem test_decode_zero_width_space : decodeTableWord 24 0x200B = some (.invalid (Char.ofNat 0x200B)) := by decide
/-- A surrogate is no character (R47). -/
theorem test_decode_surrogate : decodeTableWord 24 0xD800 = none := by decide
theorem test_decode_above_range : decodeTableWord 24 0x110000 = none := by decide
/-- All 25 code points of R42 are there. -/
theorem test_whitespace_count : defaultWhitespace.length = 25 := by decide

/-! ### One step of each instruction -/

/-- R57, the rule's example. -/
theorem test_right : view 0 (step (at_ "          >" [] 10 4 0 [] [])) = some ⟨.run, none, 11, 5, 0, [], 0⟩ := by decide
/-- V5: the move off the last cell faults. -/
theorem test_right_last_cell :
    view 0 (exec .right (at_ ">" [] 0 999 0 [] [7])) = some ⟨.faulted, some .outOfBoundsAccess, 0, 999, 0, [], 0⟩ := by
  decide
/-- R58, the rule's example. -/
theorem test_left : view 0 (exec .left (at_ "" [] 11 5 0 [] [])) = some ⟨.run, none, 12, 4, 0, [], 0⟩ := by decide
/-- V3. -/
theorem test_left_first_cell :
    view 0 (step (at_ "<" [] 0 0 0 [] [])) = some ⟨.faulted, some .outOfBoundsAccess, 0, 0, 0, [], 0⟩ := by decide
/-- R59, the rule's example. -/
theorem test_inc : view 3 (step (at_ "+" [] 0 3 0 [(3, 0x41)] [])) = some ⟨.run, none, 1, 3, 0, [], 0x42⟩ := by decide
/-- V11: 255 wraps to 0, and the cell leaves the list. -/
theorem test_inc_wraps : (nextState (exec .inc (at_ "+" [] 0 0 0 [(0, 255)] []))).map State.tape = some [] := by decide
/-- V9: 0 wraps to 255. -/
theorem test_dec_wraps : view 0 (step (at_ "-." [] 0 0 0 [] [])) = some ⟨.run, none, 1, 0, 0, [], 255⟩ := by decide
/-- R61, the rule's example. -/
theorem test_output :
    view 0 (step (at_ "." [] 0 0 0 [(0, 0x48)] [1])) = some ⟨.run, none, 1, 0, 0, [1, 0x48], 0x48⟩ := by decide
/-- R62, the rule's example. -/
theorem test_input :
    view 0 (step (at_ "," [5, 10] 0 0 1 [(0, 200)] [])) = some ⟨.run, none, 1, 0, 2, [], 10⟩ := by decide
/-- S6, V19c: end of input faults and the output is discarded. -/
theorem test_input_exhausted :
    view 0 (step (at_ "+.," [] 2 0 0 [(0, 1)] [1])) = some ⟨.faulted, some .unexpectedEndOfInput, 2, 0, 0, [], 1⟩ := by
  decide
/-- R63, the rule's example, and V29: the target may equal `PROG_LEN`. -/
theorem test_loop_jumps : view 0 (step (at_ "[-]+" [] 0 0 0 [] [])) = some ⟨.run, none, 3, 0, 0, [], 0⟩ := by decide
/-- V20. -/
theorem test_loop_unbalanced :
    view 0 (step (at_ "[" [] 0 0 0 [] [])) = some ⟨.faulted, some .unbalancedBrackets, 0, 0, 0, [], 0⟩ := by decide
/-- R64, the rule's example. -/
theorem test_endloop_jumps : view 0 (step (at_ "+[-]" [] 3 0 0 [(0, 2)] [])) = some ⟨.run, none, 2, 0, 0, [], 2⟩ := by
  decide
/-- V23. -/
theorem test_endloop_unbalanced :
    view 0 (step (at_ "+]" [] 1 0 0 [(0, 1)] [])) = some ⟨.faulted, some .unbalancedBrackets, 1, 0, 0, [], 1⟩ := by
  decide
/-- V45: whitespace takes one step. -/
theorem test_nop : view 0 (step (at_ "+ +" [] 1 0 0 [(0, 1)] [])) = some ⟨.run, none, 2, 0, 0, [], 1⟩ := by decide
/-- R66. -/
theorem test_invalid :
    view 0 (step (at_ "a" [] 0 0 0 [] [])) = some ⟨.faulted, some (.unexpectedCharInCode 'a'), 0, 0, 0, [], 0⟩ := by
  decide

/-! ### The engine around the instructions -/

/-- V33: the invalid character at the lowest position is reported. -/
theorem test_validate_first_invalid :
    (nextState (step (State.launch Config.default "+x-y".toList []))).map State.err =
      some (some (.unexpectedCharInCode 'x')) := by decide
/-- V31: an unreachable invalid character fails the eager machine and not the lazy one. -/
theorem test_validate_lazy :
    (nextState (step (State.launch { Config.default with charCheck := .lazy } "[a]".toList []))).map State.status =
      some .run := by decide
/-- V46: the empty program halts at once. -/
theorem test_halt_empty : view 0 (step (at_ "" [] 0 0 0 [] [])) = some ⟨.halted, none, 0, 0, 0, [], 0⟩ := by decide
/-- P6: `ERR` of an `OutOfBoundsAccess` is kind 4, char 0. -/
theorem test_err_word : (nextState (step (at_ "<" [] 0 0 0 [] []))).map errWord = some 0x800000 := by decide
/-- V30: `ERR.kind = 1`, `ERR.char` = U+0061. -/
theorem test_err_word_char : (nextState (step (at_ "a" [] 0 0 0 [] []))).map errWord = some 0x200061 := by decide
/-- The probe runs its instruction as the first one after reset (log 3). -/
theorem test_fetch_word :
    view 0 (step (State.reset.withFetchWord 24 0x2B)) = some ⟨.run, none, 1, 0, 0, [], 1⟩ := by decide

/-! ### The matcher: V35 to V43f -/

theorem test_match_outer :
    boundary "[[][]]" 0 .forward = some 5 ∧ boundary "[[][]]" 5 .backward = some 0 := by decide
theorem test_match_inner :
    boundary "[[][]]" 1 .forward = some 2 ∧ boundary "[[][]]" 4 .backward = some 3 := by decide
theorem test_match_runs_off :
    boundary "[[]" 0 .forward = none ∧ boundary "[]]" 2 .backward = none := by decide
theorem test_match_improper :
    boundary "[]" 1 .forward = none ∧ boundary "[]" 0 .backward = none ∧ boundary "+[]" 0 .forward = some 0 ∧
    boundary "[]" 2 .forward = none ∧ boundary "[]" (-1) .backward = none := by decide
theorem test_match_ignores_others : boundary "[+ a-]" 0 .forward = some 5 := by decide

/-! ### Witnesses: states and operands that meet the hypotheses of the statements, named after them -/

theorem witness_DecodeClassifiesByCodePoint :
    '>'.toNat = 0x3E ∧ '<'.toNat = 0x3C ∧ '+'.toNat = 0x2B ∧ '-'.toNat = 0x2D ∧ '.'.toNat = 0x2E ∧ ','.toNat = 0x2C ∧
    '['.toNat = 0x5B ∧ ']'.toNat = 0x5D ∧
    ' '.toNat ∉ [0x3E, 0x3C, 0x2B, 0x2D, 0x2E, 0x2C, 0x5B, 0x5D] ∧ ' ' ∈ Config.default.ws ∧
    '='.toNat ∉ [0x3E, 0x3C, 0x2B, 0x2D, 0x2E, 0x2C, 0x5B, 0x5D] ∧ '=' ∉ Config.default.ws := by decide

theorem witness_DecodeUndoesEncode :
    Instr.wf Config.default.ws .right = true ∧ Instr.wf Config.default.ws (.nop (Char.ofNat 0x3000)) = true ∧
    Instr.wf Config.default.ws (.invalid (Char.ofNat 0x10FFFF)) = true := by decide

theorem witness_EncodeUndoesDecode : decodeWord Config.default.ws 0x2B = .ok .inc := rfl

theorem witness_ResetStartsALaunchAfresh :
    SameLaunch (at_ "+" [1] 0 0 0 [] []) (at_ "+" [1] 1 0 1 [(0, 1)] [3]) := ⟨rfl, rfl, rfl⟩

theorem witness_LaunchMeetsTheInvariant : Config.default.wf = true := by decide

/-- A running state in the middle of a run meets the invariant. -/
theorem inv_running : (at_ "+[-]," [9] 1 0 0 [(0, 1)] [4]).Inv where
  cfgWf := by decide
  tapeWf := by decide
  tapeBelow := by decide
  mpInTape := by decide
  ipInProg := by decide
  icInInput := by decide
  validateFresh h := by cases h
  errIffFaulted := by decide
  faultedNoOutput h := by cases h
  haltedAtEnd h := by cases h
  errCharInProg c h := by cases h
  eagerCharFault _ _ c h := by cases h
  eagerBrackets h := by cases h

/-- A halted state meets the invariant. -/
theorem inv_halted : (halt (at_ "+" [] 1 0 0 [(0, 1)] [4])).Inv where
  cfgWf := by decide
  tapeWf := by decide
  tapeBelow := by decide
  mpInTape := by decide
  ipInProg := by decide
  icInInput := by decide
  validateFresh h := by cases h
  errIffFaulted := by decide
  faultedNoOutput h := by cases h
  haltedAtEnd _ := rfl
  errCharInProg c h := by cases h
  eagerCharFault _ _ c h := by cases h
  eagerBrackets h := by cases h

/-- A faulted state meets the invariant. -/
theorem inv_faulted : (raise .outOfBoundsAccess (at_ "<" [] 0 0 0 [] [4])).Inv where
  cfgWf := by decide
  tapeWf := by decide
  tapeBelow := by decide
  mpInTape := by decide
  ipInProg := by decide
  icInInput := by decide
  validateFresh h := by cases h
  errIffFaulted := by decide
  faultedNoOutput _ := rfl
  haltedAtEnd h := by cases h
  errCharInProg c h := by cases h
  eagerCharFault _ _ c h := by cases h
  eagerBrackets h := by cases h

theorem witness_StepKeepsTheInvariant :
    (at_ "+[-]," [9] 1 0 0 [(0, 1)] [4]).Inv ∧ (nextState (step (at_ "+[-]," [9] 1 0 0 [(0, 1)] [4]))).isSome = true :=
  ⟨inv_running, by decide⟩

theorem witness_StepExecutesTheFetchedInstruction :
    (at_ "+" [] 0 0 0 [] []).status = .run ∧ (at_ "+" [] 0 0 0 [] []).prog[0]? = some (encode .inc) ∧
    Instr.wf Config.default.ws .inc = true ∧ (at_ "+" [] 1 0 0 [] []).prog.length ≤ (at_ "+" [] 1 0 0 [] []).ip := by
  decide

theorem witness_NormalHaltReturnsTheOutput :
    (at_ "" [] 0 0 0 [] []).status = .run ∧ (at_ "" [] 0 0 0 [] []).prog.length ≤ (at_ "" [] 0 0 0 [] []).ip := by
  decide

/-- One program without and one with invalid characters, the reported one at position 1 of 4. -/
theorem witness_ValidateReportsTheFirstInvalidCharacter :
    Config.default.charCheck = .eager ∧ Config.default.bracketCheck = .lazy ∧
    "+ -".toList.all (fun c => decide (decode Config.default.ws c ≠ .invalid c)) = true ∧
    "+x-y".toList[1]? = some 'x' ∧ decode Config.default.ws 'x' = .invalid 'x' ∧
    ("+x-y".toList.take 1).all (fun d => decide (decode Config.default.ws d ≠ .invalid d)) = true := by decide

theorem witness_LazyValidateOnlyStartsTheRun :
    (State.launch { Config.default with charCheck := .lazy } "[a]".toList []).status = .validate ∧
    (State.launch { Config.default with charCheck := .lazy } "[a]".toList []).cfg.charCheck = .lazy ∧
    (State.launch { Config.default with charCheck := .lazy } "[a]".toList []).cfg.bracketCheck = .lazy := by decide

theorem witness_UpfrontBracketCheckRejectsUnbalancedPrograms :
    (State.launch { Config.default with bracketCheck := .eager } "[]".toList []).status = .validate ∧
    (State.launch { Config.default with bracketCheck := .eager } "[]".toList []).cfg.bracketCheck = .eager ∧
    "[]".toList.all (fun c => decide (decode Config.default.ws c ≠ .invalid c)) = true ∧ bracketsBalanced "[]".toList = true ∧
    "][".toList.all (fun c => decide (decode Config.default.ws c ≠ .invalid c)) = true ∧ bracketsBalanced "][".toList = false := by decide

theorem witness_TerminalStatesHaveNoStep :
    (halt (at_ "" [] 0 0 0 [] [])).status = .halted ∧
    (raise .unexpectedEndOfInput (at_ "," [] 0 0 0 [] [])).status = .faulted := by decide

theorem witness_NonTerminalStatesHaveAStep :
    (at_ "+[-]," [9] 1 0 0 [(0, 1)] [4]).Inv ∧ ¬ (at_ "+[-]," [9] 1 0 0 [(0, 1)] [4]).Terminal :=
  ⟨inv_running, fun h => by rcases h with h | h <;> cases h⟩

/-- `>` just before, and at, the last cell. -/
theorem witness_RightMovesThePointerUp :
    (at_ ">" [] 0 998 0 [] []).mp + 1 ≠ Config.default.tapeSize ∧
    (at_ ">" [] 0 999 0 [] []).mp + 1 = Config.default.tapeSize := by decide

/-- `<` just after, and at, cell 0. -/
theorem witness_LeftMovesThePointerDown :
    (at_ "<" [] 0 1 0 [] []).mp ≠ 0 ∧ (at_ "<" [] 0 0 0 [] []).mp = 0 := by decide

/-- The last cell exists: also for `+`, `-`, `.` (IncAddsOneModulo256, DecSubtractsOneModulo256,
OutputAppendsTheCurrentCell). -/
theorem witness_IncAddsOneModulo256 : (at_ "+" [] 0 999 0 [] []).mp < Config.default.tapeSize := by decide

/-- The last input byte, and the position after it. -/
theorem witness_InputConsumesOneByte :
    (at_ "," [5, 10] 0 999 1 [] []).mp < Config.default.tapeSize ∧
    (at_ "," [5, 10] 0 0 1 [] []).input[1]? = some 10 ∧
    (at_ "," [5, 10] 0 0 2 [] []).input.length ≤ (at_ "," [5, 10] 0 0 2 [] []).ic := by decide

theorem witness_LoopSkipsOnAZeroCell :
    (at_ "[-]" [] 0 0 0 [] []).mp < Config.default.tapeSize ∧
    Memory.read [(0, 1)] 0 ≠ 0 ∧ Memory.read [] 0 = 0 ∧ boundary "[-]" 0 .forward = some 2 ∧
    findBoundary "[".toList 0 .forward = .error .unbalancedBrackets := ⟨by decide, by decide, by decide, by decide, rfl⟩

theorem witness_EndloopRepeatsOnANonzeroCell :
    (at_ "[-]" [] 2 0 0 [(0, 1)] []).mp < Config.default.tapeSize ∧
    Memory.read [] 0 = 0 ∧ Memory.read [(0, 1)] 0 ≠ 0 ∧ boundary "[-]" 2 .backward = some 0 ∧
    findBoundary "]".toList 0 .backward = .error .unbalancedBrackets := ⟨by decide, by decide, by decide, by decide, rfl⟩

theorem witness_WhitespaceOnlyAdvances : ' ' ∈ Config.default.ws ∧ ' ' ∉ opcodeChars := by decide

theorem witness_InvalidCharacterRaisesItsFault : 'a' ∉ Config.default.ws ∧ 'a' ∉ opcodeChars := by decide

theorem witness_EagerRunsMeetNoInvalidCharacter :
    (at_ "+[-]," [9] 1 0 0 [(0, 1)] [4]).Inv ∧ (at_ "+[-]," [9] 1 0 0 [(0, 1)] [4]).cfg.charCheck = .eager ∧
    (at_ "+[-]," [9] 1 0 0 [(0, 1)] [4]).status = .run ∧ "+[-],".toList[1]? = some '[' :=
  ⟨inv_running, by decide⟩

/-- One past the last cell. -/
theorem witness_CellAccessOffTheTapeStops :
    Config.default.tapeSize ≤ (at_ "," [1] 0 1000 0 [] []).mp ∧
    (at_ "," [1] 0 1000 0 [] []).ic < (at_ "," [1] 0 1000 0 [] []).input.length := by decide

theorem witness_NonStoringInstructionsFrame :
    (nextState (exec .right (at_ ">" [] 0 0 0 [] []))).isSome = true ∧
    (nextState (exec .output (at_ "." [] 0 0 0 [] []))).isSome = true ∧
    (nextState (exec .loop (at_ "[" [] 0 0 0 [] []))).isSome = true ∧
    (nextState (exec (.nop ' ') (at_ " " [] 0 0 0 [] []))).isSome = true := by decide

theorem witness_StoringInstructionsFrame :
    (nextState (exec .inc (at_ "+" [] 0 0 0 [] []))).isSome = true ∧
    (nextState (exec .dec (at_ "-" [] 0 0 0 [] []))).isSome = true ∧
    (nextState (exec .input (at_ "," [1] 0 0 0 [] []))).isSome = true := by decide

/-- Both orders, across the wrap. -/
theorem witness_IncAndDecUndoEachOther :
    (at_ "+-" [] 0 0 0 [(0, 255)] []).tape.wf = true ∧
    ((nextState (exec .inc (at_ "+-" [] 0 0 0 [(0, 255)] []))).bind fun t => nextState (exec .dec t)).isSome = true ∧
    ((nextState (exec .dec (at_ "-+" [] 0 0 0 [] []))).bind fun t => nextState (exec .inc t)).isSome = true := by decide

/-- A step that answers a next state: for StepsNeverChangeTheLaunch, PointerMovesByOneOrStays,
InputCursorOnlyMovesForward, OutputGrowsByOneByteOrIsDiscarded. -/
theorem witness_StepsNeverChangeTheLaunch : (nextState (step (at_ ">" [] 0 0 0 [] []))).isSome = true := by decide

theorem witness_CellsChangeOnlyAtThePointer :
    view 3 (step (at_ "+" [] 0 3 0 [] [])) = some ⟨.run, none, 1, 3, 0, [], 1⟩ ∧
    (at_ "+" [] 0 3 0 [] []).tape.read 3 = 0 := by decide

/-- A taken jump of each kind: `IP` neither moves by one nor is the fault's. -/
theorem witness_OnlyBracketsTransferControl :
    view 0 (step (at_ "[-]" [] 0 0 0 [] [])) = some ⟨.run, none, 3, 0, 0, [], 0⟩ ∧
    view 0 (step (at_ "[-]" [] 2 0 0 [(0, 1)] [])) = some ⟨.run, none, 1, 0, 0, [], 1⟩ := by decide

theorem witness_EachInstructionRaisesOnlyItsOwnFault :
    (at_ "<" [] 0 0 0 [] []).err = none ∧ (nextState (exec .left (at_ "<" [] 0 0 0 [] []))).isSome = true ∧
    (State.launch Config.default ['a'] []).status = .validate ∧
    (State.launch Config.default ['a'] []).err = none ∧
    (nextState (step (State.launch Config.default ['a'] []))).isSome = true := by decide

theorem witness_FaultsArePreciseAndDiscardOutput :
    (nextState (step (at_ "<" [] 0 0 0 [] [1]))).map State.status = some .faulted := by decide

/-- Each kind recorded, the character of kind 1 at the top of the code range; a step that records one. -/
theorem witness_ErrRecordsKindAndCharacter_fields :
    State.reset.err = none ∧
    (raise (.unexpectedCharInCode (Char.ofNat 0x10FFFF)) State.reset).err =
      some (.unexpectedCharInCode (Char.ofNat 0x10FFFF)) ∧
    (raise .unexpectedEndOfInput State.reset).err = some .unexpectedEndOfInput ∧
    (raise .unbalancedBrackets State.reset).err = some .unbalancedBrackets ∧
    (raise .outOfBoundsAccess State.reset).err = some .outOfBoundsAccess ∧
    (nextState (step (at_ "<" [] 0 0 0 [] []))).map State.err ≠ some (at_ "<" [] 0 0 0 [] []).err := by decide

theorem witness_ErrRecordsKindAndCharacter :
    (raise .outOfBoundsAccess (at_ "<" [] 0 0 0 [] [4])).Inv ∧
    errKind (raise .outOfBoundsAccess (at_ "<" [] 0 0 0 [] [4])) ≠ 0 := ⟨inv_faulted, by decide⟩

theorem witness_ResultExistsOnlyAtTheEnd :
    (halt (at_ "+" [] 1 0 0 [(0, 1)] [4])).Inv ∧ (halt (at_ "+" [] 1 0 0 [(0, 1)] [4])).status = .halted ∧
    (raise .outOfBoundsAccess (at_ "<" [] 0 0 0 [] [4])).Inv := ⟨inv_halted, by decide, inv_faulted⟩

theorem witness_InvalidProgramsEndWithTheirCharacterFault :
    Config.default.charCheck = .eager ∧ 'a' ∈ ",a".toList ∧ decode Config.default.ws 'a' = .invalid 'a' ∧
    (nextState (Host.Core.run Sys2Proof.core 1 (State.launch Config.default ",a".toList []))).isSome = true := by decide

theorem witness_CheckPoliciesAgreeOnSoundPrograms :
    firstInvalid Config.default.ws "+[-]".toList = none ∧ bracketsBalanced "+[-]".toList = true ∧
    (nextState (step (at_ "+[-]" [] 0 0 0 [] []))).isSome = true ∧
    step (halt (at_ "+[-]" [] 4 0 0 [] [])) = .fault .engineHalted := ⟨by decide, by decide, by decide, rfl⟩

theorem witness_FetchWordRunsNext :
    State.reset.cfg.ws = Config.default.ws ∧ decodeTableWord 24 0x5B = some .loop := by decide

theorem witness_MatcherIsTheLoopOfTheRule :
    ((-1 : Int) < 0) ∧ (("[]".toList.length : Int) ≤ 2) ∧ "[]".toList[0]? = some '[' ∧ "[]".toList[1]? = some ']' := by
  decide

/-- A proper call of each direction that returns: also for MatchingIsSymmetric. -/
theorem witness_ProperCallsReturnTheOtherBracket :
    "[]".toList[0]? = some '[' ∧ findBoundary "[]".toList 0 .forward = .ok 1 ∧
    "[]".toList[1]? = some ']' ∧ findBoundary "[]".toList 1 .backward = .ok 0 := ⟨by decide, rfl, by decide, rfl⟩

/-- Each direction with and without a boundary: for the two shortest-even-segment statements. -/
theorem witness_BoundaryIsTheShortestEvenSegment :
    "[[]".toList[0]? = some '[' ∧ boundary "[[]" 0 .forward = none ∧
    "[[]".toList[1]? = some '[' ∧ boundary "[[]" 1 .forward = some 2 ∧
    "[]]".toList[2]? = some ']' ∧ boundary "[]]" 2 .backward = none ∧
    "[]]".toList[1]? = some ']' ∧ boundary "[]]" 1 .backward = some 0 := by decide

theorem witness_ImproperMatcherCalls :
    ((-1 : Int) < 0) ∧ (("[]".toList.length : Int) ≤ 2) ∧ "[]".toList[1]? = some ']' ∧ "[]".toList[0]? = some '[' ∧
    "+[]".toList[0]? = some '+' ∧ '+' ≠ '[' ∧ '+' ≠ ']' := by decide

theorem witness_BalancedProgramsNeverRaiseUnbalanced :
    bracketsBalanced "+[-]".toList = true ∧ "+[-]".toList[1]? = some '[' ∧ "+[-]".toList[3]? = some ']' ∧
    (at_ "+[-]" [] 3 0 0 [(0, 1)] []).err ≠ some .unbalancedBrackets ∧
    (nextState (step (at_ "+[-]" [] 3 0 0 [(0, 1)] []))).isSome = true := by decide

end Sys2Proof.Tests
end

section
/-! PROOFS, 00_scope.md. Cell accesses with `MP` off the tape (R7, R31; log 5). -/

namespace Sys2Proof.Machine

/-- The popped byte has no cell to go to: popping input moves `IC` only, so `MP` is still off the tape. -/
theorem execInput_offTape {s : State} (hmp : s.cfg.tapeSize ≤ s.mp) (hin : s.ic < s.input.length) :
    execInput s = .fault .noSuchCell := by
  unfold execInput
  split
  · next hnone =>
    have hend := (inPop_eq_none_iff s).mp hnone
    omega
  · next b t hpop =>
    obtain ⟨-, rfl⟩ := (inPop_eq_some_iff s t b).mp hpop
    exact storeCell_offTape b hmp

/-- Settles O28: every form but `,` begins with a read of the current cell, which does not exist; `,` stops at its
store. -/
theorem cellAccessOffTheTapeStops : Obligations.CellAccessOffTheTapeStops := by
  intro s hmp
  have inc : exec .inc s = .fault .noSuchCell := withCell_offTape _ hmp
  have dec : exec .dec s = .fault .noSuchCell := withCell_offTape _ hmp
  have output : exec .output s = .fault .noSuchCell := withCell_offTape _ hmp
  have loop : exec .loop s = .fault .noSuchCell := withCell_offTape _ hmp
  have endloop : exec .endloop s = .fault .noSuchCell := withCell_offTape _ hmp
  exact ⟨inc, dec, output, loop, endloop, execInput_offTape hmp⟩

end Sys2Proof.Machine
end

section
/-! PROOFS, 10_state.md. What an executed instruction does to the state, said once for all forms; what every step keeps;
the invariant. -/

namespace Sys2Proof.Machine

/-! ### What one step does -/

/-- A character is the encoding of the instruction it decodes to (R41, R45). -/
theorem encode_decode (ws : List Char) (c : Char) : encode (decode ws c) = c := by
  rcases decode_opcode_or_rest ws c with hop | ⟨-, hrest⟩
  · simp only [opcodeChars, List.mem_cons, List.not_mem_nil, or_false] at hop
    rcases hop with rfl | rfl | rfl | rfl | rfl | rfl | rfl | rfl <;> rfl
  · rw [hrest]
    split <;> rfl

/-- A matcher call returns a position of the program (R67). -/
theorem findBoundary_lt {prog : List Char} {start : Int} {dir : Direction} {b : Nat}
    (h : findBoundary prog start dir = .ok b) : b < prog.length := by
  obtain ⟨c, hmem⟩ := scan_ok h
  exact (List.getElem?_eq_some_iff.mp (scanPath_mem hmem)).1

/-- The fault `e` is raised when `s` executes `i`: the condition of each instruction's rule (R57, R58, R62 to R64, R66). -/
inductive Raises (s : State) : Instr → ErrKind → Prop
  | right (hlast : s.mp + 1 = s.cfg.tapeSize) : Raises s .right .outOfBoundsAccess
  | left (hfirst : s.mp = 0) : Raises s .left .outOfBoundsAccess
  | input (hend : s.input.length ≤ s.ic) : Raises s .input .unexpectedEndOfInput
  | loop (hzero : s.tape.read s.mp = 0) (hscan : findBoundary s.prog s.ip .forward = .error .unbalancedBrackets) :
      Raises s .loop .unbalancedBrackets
  | endloop (hnonzero : s.tape.read s.mp ≠ 0)
      (hscan : findBoundary s.prog s.ip .backward = .error .unbalancedBrackets) :
      Raises s .endloop .unbalancedBrackets
  | invalid (c : Char) : Raises s (.invalid c) (.unexpectedCharInCode c)

/-- `s` executes `i` without a fault and becomes the last argument (R57 to R65). -/
inductive Completes (s : State) : Instr → State → Prop
  | right (hlast : s.mp + 1 ≠ s.cfg.tapeSize) : Completes s .right (advance (setMp (s.mp + 1) s))
  | left (hfirst : s.mp ≠ 0) : Completes s .left (advance (setMp (s.mp - 1) s))
  | inc (hmp : s.mp < s.cfg.tapeSize) :
      Completes s .inc (advance { s with tape := s.tape.write s.mp (cellInc (s.tape.read s.mp)) })
  | dec (hmp : s.mp < s.cfg.tapeSize) :
      Completes s .dec (advance { s with tape := s.tape.write s.mp (cellDec (s.tape.read s.mp)) })
  | output (hmp : s.mp < s.cfg.tapeSize) : Completes s .output (advance (outPush (s.tape.read s.mp) s))
  | input (b : Byte) (hbyte : s.input[s.ic]? = some b) (hmp : s.mp < s.cfg.tapeSize) :
      Completes s .input (advance { s with ic := s.ic + 1, tape := s.tape.write s.mp b })
  | loopSkip (b : Nat) (hzero : s.tape.read s.mp = 0) (hscan : findBoundary s.prog s.ip .forward = .ok b) :
      Completes s .loop (jump (b + 1) s)
  | loopEnter (hnonzero : s.tape.read s.mp ≠ 0) : Completes s .loop (advance s)
  | endloopRepeat (b : Nat) (hnonzero : s.tape.read s.mp ≠ 0)
      (hscan : findBoundary s.prog s.ip .backward = .ok b) : Completes s .endloop (jump (b + 1) s)
  | endloopLeave (hzero : s.tape.read s.mp = 0) : Completes s .endloop (advance s)
  | nop (c : Char) : Completes s (.nop c) (advance s)

/-- An instruction that is executed takes its own fault or completes. -/
theorem exec_cases {i : Instr} {s t : State} (h : exec i s = .next t) :
    (∃ e, Raises s i e ∧ t = raise e s) ∨ Completes s i t := by
  cases i with
  | right =>
    rcases execRight_cases h with ⟨hlast, rfl⟩ | ⟨hlast, rfl⟩
    · exact .inl ⟨_, .right hlast, rfl⟩
    · exact .inr (.right hlast)
  | left =>
    rcases execLeft_cases h with ⟨hfirst, rfl⟩ | ⟨hfirst, rfl⟩
    · exact .inl ⟨_, .left hfirst, rfl⟩
    · exact .inr (.left hfirst)
  | inc =>
    obtain ⟨hmp, rfl⟩ := execInc_cases h
    exact .inr (.inc hmp)
  | dec =>
    obtain ⟨hmp, rfl⟩ := execDec_cases h
    exact .inr (.dec hmp)
  | output =>
    obtain ⟨hmp, rfl⟩ := execOutput_cases h
    exact .inr (.output hmp)
  | input =>
    rcases execInput_cases h with ⟨hend, rfl⟩ | ⟨b, hbyte, hmp, rfl⟩
    · exact .inl ⟨_, .input hend, rfl⟩
    · exact .inr (.input b hbyte hmp)
  | loop =>
    obtain ⟨-, ⟨hzero, rfl⟩ | ⟨hnonzero, rfl⟩⟩ := execLoop_cases h
    · rcases jumpPastBoundary_cases .forward s with ⟨b, hscan, heq⟩ | ⟨hscan, heq⟩
      · exact .inr (heq ▸ .loopSkip b hzero hscan)
      · exact .inl ⟨_, .loop hzero hscan, heq⟩
    · exact .inr (.loopEnter hnonzero)
  | endloop =>
    obtain ⟨-, ⟨hzero, rfl⟩ | ⟨hnonzero, rfl⟩⟩ := execEndloop_cases h
    · exact .inr (.endloopLeave hzero)
    · rcases jumpPastBoundary_cases .backward s with ⟨b, hscan, heq⟩ | ⟨hscan, heq⟩
      · exact .inr (heq ▸ .endloopRepeat b hnonzero hscan)
      · exact .inl ⟨_, .endloop hnonzero hscan, heq⟩
  | nop c =>
    cases h
    exact .inr (.nop c)
  | invalid c =>
    cases h
    exact .inl ⟨_, .invalid c, rfl⟩

/-- What any step does to the state: it is one fault entry, it changes `STATUS` only, or it completes the instruction
whose encoding stands at `IP`. -/
theorem step_effect {s t : State} (h : step s = .next t) :
    (∃ e, t = raise e s) ∨ (∃ st, t = setStatus st s) ∨
    (∃ i, s.prog[s.ip]? = some (encode i) ∧ Completes s i t) := by
  rcases step_cases h with ⟨-, rfl⟩ | ⟨-, -, rfl⟩ | ⟨-, c, hfetch, hexec⟩
  · rcases validateStep_cases s with ⟨e, -, heq⟩ | ⟨-, e, -, heq⟩ | ⟨-, -, heq⟩
    · exact .inl ⟨e, heq⟩
    · exact .inl ⟨e, heq⟩
    · exact .inr (.inl ⟨.run, heq⟩)
  · exact .inr (.inl ⟨.halted, rfl⟩)
  · rcases exec_cases hexec with ⟨e, -, heq⟩ | hdone
    · exact .inl ⟨e, heq⟩
    · exact .inr (.inr ⟨_, by rw [encode_decode, hfetch], hdone⟩)

theorem step_halted {s : State} (h : s.status = .halted) : step s = .fault .engineHalted := by
  simp only [step, h]

theorem step_faulted {s : State} (h : s.status = .faulted) : step s = .fault .engineFaulted := by
  simp only [step, h]

/-- `raise` leaves what R84 and R85 say fault entry leaves. -/
theorem takesFault_raise (e : ErrKind) (s : State) : TakesFault e s (raise e s) where
  launch := ⟨rfl, rfl, rfl⟩
  err := rfl
  out := rfl
  status := rfl
  tape _ := rfl
  mp := rfl
  ip := rfl
  ic := rfl

theorem Completes.sameLaunch {s t : State} {i : Instr} (h : Completes s i t) : SameLaunch s t := by
  cases h <;> exact ⟨rfl, rfl, rfl⟩

theorem Completes.noFault {s t : State} {i : Instr} (h : Completes s i t) : NoFault s t := by
  cases h <;> exact ⟨rfl, rfl⟩

/-! ### The validate step's defects (R49, R50) -/

theorem charDefect_eq_some_iff (s : State) (e : ErrKind) :
    charDefect s = some e ↔
      s.cfg.charCheck = .eager ∧ ∃ c, firstInvalid s.cfg.ws s.prog = some c ∧ e = .unexpectedCharInCode c := by
  unfold charDefect
  cases s.cfg.charCheck with
  | lazy => simp
  | eager => simp [eq_comm]

theorem firstInvalid_eq_none_of_charDefect {s : State} (h : charDefect s = none) (heager : s.cfg.charCheck = .eager) :
    firstInvalid s.cfg.ws s.prog = none := by
  simpa [charDefect, heager] using h

theorem bracketDefect_eq_some {s : State} {e : ErrKind} (h : bracketDefect s = some e) : e = .unbalancedBrackets := by
  unfold bracketDefect at h
  split at h
  · cases h
  · split at h
    · cases h
    · cases h; rfl

theorem bracketsBalanced_of_bracketDefect {s : State} (h : bracketDefect s = none)
    (heager : s.cfg.bracketCheck = .eager) : bracketsBalanced s.prog = true := by
  simpa [bracketDefect, heager] using h

/-- The reported character stands in the program and is invalid. -/
theorem firstInvalid_spec {ws prog : List Char} {c : Char} (h : firstInvalid ws prog = some c) :
    c ∈ prog ∧ decode ws c = .invalid c := by
  have hinvalid : isInvalid ws c = true := List.find?_some h
  exact ⟨List.mem_of_find?_eq_some h, of_decide_eq_true hinvalid⟩

/-! ### The ranges of the registers (R12 to R15) -/

/-- The part of the invariant about `TAPE`, `MP`, `IP` and `IC`. -/
structure State.InRange (s : State) : Prop where
  tapeWf : s.tape.wf = true
  tapeBelow : s.tape.below s.cfg.tapeSize = true
  mpInTape : s.mp < s.cfg.tapeSize
  ipInProg : s.ip ≤ s.prog.length
  icInInput : s.ic ≤ s.input.length

theorem State.Inv.inRange {s : State} (h : s.Inv) : s.InRange :=
  ⟨h.tapeWf, h.tapeBelow, h.mpInTape, h.ipInProg, h.icInInput⟩

namespace State.InRange

variable {s : State}

theorem jump {p : Nat} (h : s.InRange) (hp : p ≤ s.prog.length) : (jump p s).InRange :=
  { h with ipInProg := hp }

theorem advance (h : s.InRange) (hip : s.ip < s.prog.length) : (advance s).InRange :=
  h.jump hip

theorem setMp {a : Nat} (h : s.InRange) (ha : a < s.cfg.tapeSize) : (setMp a s).InRange :=
  { h with mpInTape := ha }

theorem outPush (b : Byte) (h : s.InRange) : (outPush b s).InRange :=
  { h with }

theorem setIc {n : Nat} (h : s.InRange) (hn : n ≤ s.input.length) : State.InRange { s with ic := n } :=
  { h with icInInput := hn }

theorem write (v : Byte) (h : s.InRange) : State.InRange { s with tape := s.tape.write s.mp v } :=
  { h with
    tapeWf := Memory.write_wf _ _ v h.tapeWf
    tapeBelow := Memory.write_below _ _ _ v h.mpInTape h.tapeBelow }

end State.InRange

/-- A completed instruction leaves every register in its range: `IP` comes from a position of the program, and `MP` and
`IC` move only where their rule's guard allows it. -/
theorem Completes.inRange {s t : State} {i : Instr} (hdone : Completes s i t) (h : s.InRange)
    (hip : s.ip < s.prog.length) : t.InRange := by
  cases hdone with
  | right hlast =>
    have hmp := h.mpInTape
    exact (h.setMp (by omega)).advance hip
  | left hfirst =>
    have hmp := h.mpInTape
    exact (h.setMp (by omega)).advance hip
  | inc => exact (h.write _).advance hip
  | dec => exact (h.write _).advance hip
  | output => exact (h.outPush _).advance hip
  | input b hbyte =>
    have hic : s.ic < s.input.length := (List.getElem?_eq_some_iff.mp hbyte).1
    exact ((h.write b).setIc hic).advance hip
  | loopSkip b _ hscan => exact h.jump (findBoundary_lt hscan)
  | endloopRepeat b _ hscan => exact h.jump (findBoundary_lt hscan)
  | loopEnter => exact h.advance hip
  | endloopLeave => exact h.advance hip
  | nop => exact h.advance hip

/-! ### The invariant -/

namespace State.Inv

variable {s t : State}

theorem err_eq_none (h : s.Inv) (hst : s.status ≠ .faulted) : s.err = none :=
  not_not.mp fun herr => hst (h.errIffFaulted.mp herr)

/-- Under the eager character check a run holds no invalid character: the validate step has reported it (R78). -/
theorem firstInvalid_eq_none (h : s.Inv) (heager : s.cfg.charCheck = .eager) (hrun : s.status = .run) :
    firstInvalid s.cfg.ws s.prog = none := by
  have herr : s.err = none := h.err_eq_none (by simp [hrun])
  refine Option.eq_none_iff_forall_ne_some.mpr fun c hc => ?_
  have hsome := h.eagerCharFault heager (by simp [hrun]) c hc
  simp [herr] at hsome

/-- Fault entry keeps the invariant when the fault is one the character check allows (R50, R78). -/
theorem raise {e : ErrKind} (h : s.Inv)
    (hchar : ∀ c, e = .unexpectedCharInCode c → c ∈ s.prog ∧ decode s.cfg.ws c = .invalid c)
    (heager : s.cfg.charCheck = .eager → ∀ c, firstInvalid s.cfg.ws s.prog = some c → e = .unexpectedCharInCode c) :
    (raise e s).Inv :=
  { h with
    validateFresh := by simp
    errIffFaulted := by simp
    faultedNoOutput := fun _ => rfl
    haltedAtEnd := by simp
    errCharInProg := fun c hc => hchar c (Option.some.inj hc)
    eagerCharFault := fun hcheck _ c hc => congrArg some (heager hcheck c hc)
    eagerBrackets := by simp }

/-- The normal halt past the end of the program keeps the invariant (R55). -/
theorem halt (h : s.Inv) (hrun : s.status = .run) (hip : s.prog.length ≤ s.ip) : (halt s).Inv :=
  have herr : s.err = none := h.err_eq_none (by simp [hrun])
  { h with
    validateFresh := by simp
    errIffFaulted := by simp [herr]
    faultedNoOutput := by simp
    haltedAtEnd := fun _ => Nat.le_antisymm h.ipInProg hip
    eagerCharFault := fun hcheck _ => h.eagerCharFault hcheck (by simp [hrun])
    eagerBrackets := fun hcheck _ => h.eagerBrackets hcheck (.inl hrun) }

/-- The run begins with the invariant when neither check has found a defect (R49). -/
theorem start (h : s.Inv) (hval : s.status = .validate) (hc : charDefect s = none) (hb : bracketDefect s = none) :
    (setStatus .run s).Inv :=
  have herr : s.err = none := h.err_eq_none (by simp [hval])
  { h with
    validateFresh := by simp
    errIffFaulted := by simp [herr]
    faultedNoOutput := by simp
    haltedAtEnd := by simp
    eagerCharFault := fun hcheck _ _ hsome =>
      nomatch (firstInvalid_eq_none_of_charDefect hc hcheck).symm.trans hsome
    eagerBrackets := fun hcheck _ => bracketsBalanced_of_bracketDefect hb hcheck }

/-- While the run goes on, a step without a fault keeps the invariant when it keeps the launch and the ranges. -/
theorem of_inRange (h : s.Inv) (hrun : s.status = .run) (hlaunch : SameLaunch s t) (hno : NoFault s t)
    (hrange : t.InRange) : t.Inv := by
  obtain ⟨hcfg, hprog, -⟩ := hlaunch
  have hst : t.status = .run := hno.status.trans hrun
  have herr : t.err = none := hno.err.trans (h.err_eq_none (by simp [hrun]))
  exact { hrange with
    cfgWf := hcfg ▸ h.cfgWf
    validateFresh := by simp [hst]
    errIffFaulted := by simp [hst, herr]
    faultedNoOutput := by simp [hst]
    haltedAtEnd := by simp [hst]
    errCharInProg := by simp [herr]
    eagerCharFault := by
      rw [hcfg, hprog]
      intro hcheck _ c hc
      exact nomatch (h.firstInvalid_eq_none hcheck hrun).symm.trans hc
    eagerBrackets := by
      rw [hcfg, hprog]
      exact fun hcheck _ => h.eagerBrackets hcheck (.inl hrun) }

theorem validateStep (h : s.Inv) (hval : s.status = .validate) : (validateStep s).Inv := by
  rcases validateStep_cases s with ⟨e, he, heq⟩ | ⟨hc, e, he, heq⟩ | ⟨hc, hb, heq⟩ <;> rw [heq]
  · obtain ⟨-, d, hd, rfl⟩ := (charDefect_eq_some_iff s e).mp he
    refine h.raise (fun c hc => ?_) fun _ c hc => ?_
    · cases hc
      exact firstInvalid_spec hd
    · cases hd.symm.trans hc
      rfl
  · obtain rfl := bracketDefect_eq_some he
    refine h.raise (fun _ hchar => nomatch hchar) fun hcheck _ hsome => ?_
    exact nomatch (firstInvalid_eq_none_of_charDefect hc hcheck).symm.trans hsome
  · exact h.start hval hc hb

/-- In a run an instruction's fault keeps the invariant: only an invalid character raises `UnexpectedCharInCode`, and the
eager check leaves none to meet. -/
theorem raise_of_raises {c : Char} {e : ErrKind} (h : s.Inv) (hrun : s.status = .run) (hfetch : s.prog[s.ip]? = some c)
    (hraises : Raises s (decode s.cfg.ws c) e) : (Machine.raise e s).Inv := by
  refine h.raise (fun d hd => ?_) fun hcheck d hsome => ?_
  · subst hd
    have hdec : decode s.cfg.ws c = .invalid d := by
      generalize decode s.cfg.ws c = i at hraises
      cases hraises
      rfl
    have hcd : c = d := by rw [← encode_decode s.cfg.ws c, hdec]; rfl
    subst hcd
    exact ⟨List.mem_of_getElem? hfetch, hdec⟩
  · exact nomatch (h.firstInvalid_eq_none hcheck hrun).symm.trans hsome

end State.Inv

/-- A well-formed configuration begins its launch in a state that meets the invariant. -/
theorem State.launch_inv {cfg : Config} (hwf : cfg.wf = true) (prog : List Char) (input : List Byte) :
    (State.launch cfg prog input).Inv where
  cfgWf := hwf
  tapeWf := rfl
  tapeBelow := rfl
  mpInTape := by
    have hsize : 1 ≤ cfg.tapeSize := of_decide_eq_true (Bool.and_eq_true_iff.mp hwf).1
    exact hsize
  ipInProg := Nat.zero_le _
  icInInput := Nat.zero_le _
  validateFresh _ := rfl
  errIffFaulted := by simp
  faultedNoOutput _ := rfl
  haltedAtEnd := by simp
  errCharInProg := by simp
  eagerCharFault := by simp
  eagerBrackets := by simp

/-- Settles O9, by the step's kinds: validate, halt, or an executed instruction that takes its fault or completes. -/
theorem stepKeepsTheInvariant : Obligations.StepKeepsTheInvariant := by
  intro s t h hstep
  rcases step_cases hstep with ⟨hval, rfl⟩ | ⟨hrun, hip, rfl⟩ | ⟨hrun, c, hfetch, hexec⟩
  · exact h.validateStep hval
  · exact h.halt hrun hip
  · rcases exec_cases hexec with ⟨e, hraises, rfl⟩ | hdone
    · exact h.raise_of_raises hrun hfetch hraises
    · have hip : s.ip < s.prog.length := (List.getElem?_eq_some_iff.mp hfetch).1
      exact h.of_inRange hrun hdone.sameLaunch hdone.noFault (hdone.inRange h.inRange hip)

/-- Settles O8; the default configuration is well formed by evaluation. -/
theorem launchMeetsTheInvariant : Obligations.LaunchMeetsTheInvariant :=
  ⟨State.launch_inv (by decide) [] [], fun _ prog input hwf => State.launch_inv hwf prog input⟩

/-! ### What no step changes, and what each register's changes are -/

/-- Settles O32: fault entry, a change of `STATUS` and every completed instruction keep the launch. -/
theorem stepsNeverChangeTheLaunch : Obligations.StepsNeverChangeTheLaunch := by
  intro s t h
  rcases step_effect h with ⟨e, rfl⟩ | ⟨st, rfl⟩ | ⟨i, -, hdone⟩
  · exact (takesFault_raise e s).launch
  · exact ⟨rfl, rfl, rfl⟩
  · exact hdone.sameLaunch

/-- Settles O33: of the completed instructions only `>` and `<` set `MP`. -/
theorem pointerMovesByOneOrStays : Obligations.PointerMovesByOneOrStays := by
  intro s t h
  rcases step_effect h with ⟨e, rfl⟩ | ⟨st, rfl⟩ | ⟨i, hfetch, hdone⟩
  · exact .inl rfl
  · exact .inl rfl
  · cases hdone with
    | right => exact .inr (.inl ⟨hfetch, rfl⟩)
    | left hfirst => exact .inr (.inr ⟨hfetch, Nat.sub_add_cancel (Nat.pos_of_ne_zero hfirst)⟩)
    | _ => exact .inl rfl

/-- A cell that a store to index `a` changes is the one at `a`. -/
theorem Memory.eq_of_read_write_ne {m : Memory} {a b : Nat} {v : Byte} (h : (m.write a v).read b ≠ m.read b) : b = a :=
  not_not.mp fun hne => h (Memory.read_write_other m a b v hne)

/-- Settles O34: only `+`, `-` and `,` store, each at `MP`. -/
theorem cellsChangeOnlyAtThePointer : Obligations.CellsChangeOnlyAtThePointer := by
  intro s t a h hne
  rcases step_effect h with ⟨e, rfl⟩ | ⟨st, rfl⟩ | ⟨i, hfetch, hdone⟩
  · exact absurd rfl hne
  · exact absurd rfl hne
  · cases hdone with
    | inc => exact ⟨Memory.eq_of_read_write_ne hne, .inl hfetch⟩
    | dec => exact ⟨Memory.eq_of_read_write_ne hne, .inr (.inl hfetch)⟩
    | input => exact ⟨Memory.eq_of_read_write_ne hne, .inr (.inr hfetch)⟩
    | _ => exact absurd rfl hne

/-- Settles O35: only `,` moves `IC`, and it stores the byte it reads. -/
theorem inputCursorOnlyMovesForward : Obligations.InputCursorOnlyMovesForward := by
  intro s t h
  rcases step_effect h with ⟨e, rfl⟩ | ⟨st, rfl⟩ | ⟨i, hfetch, hdone⟩
  · exact .inl rfl
  · exact .inl rfl
  · cases hdone with
    | input b hbyte => exact .inr ⟨hfetch, rfl, by simp [hbyte]⟩
    | _ => exact .inl rfl

/-- Settles O36: only `.` appends to `OUT`, and only fault entry discards it. -/
theorem outputGrowsByOneByteOrIsDiscarded : Obligations.OutputGrowsByOneByteOrIsDiscarded := by
  intro s t h
  rcases step_effect h with ⟨e, rfl⟩ | ⟨st, rfl⟩ | ⟨i, hfetch, hdone⟩
  · exact .inr (.inr ⟨rfl, rfl⟩)
  · exact .inl rfl
  · cases hdone with
    | output => exact .inr (.inl ⟨hfetch, rfl⟩)
    | _ => exact .inl rfl

/-- Settles O15. -/
theorem terminalStatesHaveNoStep : Obligations.TerminalStatesHaveNoStep :=
  fun _ => ⟨step_halted, step_faulted⟩

/-! ### `ERR` (R18) -/

theorem errKind_of_none {s : State} (h : s.err = none) : errKind s = 0 := by simp only [errKind, h]

theorem errChar_of_none {s : State} (h : s.err = none) : errChar s = 0 := by simp only [errChar, h]

/-- `ERR` is written by fault entry only. -/
theorem takesFault_of_err_ne {s t : State} (h : step s = .next t) (hne : t.err ≠ s.err) : ∃ e, TakesFault e s t := by
  rcases step_effect h with ⟨e, rfl⟩ | ⟨st, rfl⟩ | ⟨i, -, hdone⟩
  · exact ⟨e, takesFault_raise e s⟩
  · exact absurd rfl hne
  · exact absurd hdone.noFault.err hne

/-- With a fault recorded the engine stands in `FAULTED`, where no step is left. -/
theorem step_ne_next_of_errKind {s t : State} (h : s.Inv) (hkind : errKind s ≠ 0) : step s ≠ .next t := by
  have herr : s.err ≠ none := fun hnone => hkind (errKind_of_none hnone)
  rw [step_faulted (h.errIffFaulted.mp herr)]
  exact nofun

theorem errWord_of_none {s : State} (h : s.err = none) : errWord s = 0 := by
  rw [errWord, errKind_of_none h, errChar_of_none h]
  rfl

/-- Settles O40: the fields kind by kind, then the two facts about steps. -/
theorem errRecordsKindAndCharacter : Obligations.ErrRecordsKindAndCharacter := by
  refine ⟨fun s => ?_, fun _ _ => takesFault_of_err_ne, fun _ _ => step_ne_next_of_errKind⟩
  have hchar : ∀ c, s.err = some (.unexpectedCharInCode c) → errKind s = 1 ∧ (errChar s).toNat = c.toNat := by
    intro c h
    exact ⟨by simp only [errKind, h], by simpa only [errChar, h, charWord] using charWord_toNat c⟩
  have hinput : s.err = some .unexpectedEndOfInput → errKind s = 2 ∧ errChar s = 0 := by
    intro h
    simp only [errKind, errChar, h, and_self]
  have hbrackets : s.err = some .unbalancedBrackets → errKind s = 3 ∧ errChar s = 0 := by
    intro h
    simp only [errKind, errChar, h, and_self]
  have hbounds : s.err = some .outOfBoundsAccess → errKind s = 4 ∧ errChar s = 0 := by
    intro h
    simp only [errKind, errChar, h, and_self]
  exact ⟨fun h => ⟨errKind_of_none h, errChar_of_none h⟩, hchar, hinput, hbrackets, hbounds,
    BitVec.extractLsb'_append_eq_left, BitVec.extractLsb'_append_eq_right, errWord_of_none (relaunch_err s)⟩

end Sys2Proof.Machine
end

section
/-! PROOFS, 20_memory.md. The frame of a completed instruction, register by register, and the two frames of the
instruction forms. -/

namespace Sys2Proof.Machine

/-! ### What a completed instruction leaves unchanged -/

section

variable {s t : State} {i : Instr}

/-- Only `+`, `-` and `,` store (R27). -/
theorem Completes.cellsUnchanged (h : Completes s i t) (hinc : i ≠ .inc) (hdec : i ≠ .dec) (hinput : i ≠ .input) :
    CellsUnchanged s t := by
  cases h with
  | inc => exact absurd rfl hinc
  | dec => exact absurd rfl hdec
  | input => exact absurd rfl hinput
  | _ => exact fun _ => rfl

/-- A store goes to the current cell (R14). -/
theorem Completes.cellsUnchangedBut (h : Completes s i t) : CellsUnchangedBut (currentAddr s) s t := by
  cases h with
  | inc => exact fun _ hne => Memory.read_write_other _ _ _ _ hne
  | dec => exact fun _ hne => Memory.read_write_other _ _ _ _ hne
  | input => exact fun _ hne => Memory.read_write_other _ _ _ _ hne
  | _ => exact fun _ _ => rfl

/-- Only `>` and `<` set `MP` (R13). -/
theorem Completes.mp_eq (h : Completes s i t) (hright : i ≠ .right) (hleft : i ≠ .left) : t.mp = s.mp := by
  cases h with
  | right => exact absurd rfl hright
  | left => exact absurd rfl hleft
  | _ => rfl

/-- Only `,` moves `IC` (R15). -/
theorem Completes.ic_eq (h : Completes s i t) (hinput : i ≠ .input) : t.ic = s.ic := by
  cases h with
  | input => exact absurd rfl hinput
  | _ => rfl

/-- Only `.` appends to `OUT` (R16). -/
theorem Completes.out_eq (h : Completes s i t) (houtput : i ≠ .output) : t.out = s.out := by
  cases h with
  | output => exact absurd rfl houtput
  | _ => rfl

end

/-! ### The frames -/

/-- Settles O29: a fault entry leaves everything the frame names, a completed instruction that stores nothing leaves it
register by register. -/
theorem nonStoringInstructionsFrame : Obligations.NonStoringInstructionsFrame := by
  intro i s t hinc hdec hinput h
  rcases exec_cases h with ⟨e, -, rfl⟩ | hdone
  · have hfault := takesFault_raise e s
    exact ⟨hfault.launch, hfault.tape, hfault.ic, fun _ _ => hfault.mp, .inr ⟨e, hfault⟩⟩
  · exact ⟨hdone.sameLaunch, hdone.cellsUnchanged hinc hdec hinput, hdone.ic_eq hinput, hdone.mp_eq,
      .inl ⟨hdone.noFault, hdone.out_eq⟩⟩

/-- Settles O30: the one cell a completed instruction can change is the current one, and of the storing forms none moves
`MP` or appends to `OUT`. -/
theorem storingInstructionsFrame : Obligations.StoringInstructionsFrame := by
  intro i s t hform h
  rcases exec_cases h with ⟨e, -, rfl⟩ | hdone
  · have hfault := takesFault_raise e s
    exact ⟨hfault.launch, fun a _ => hfault.tape a, hfault.mp, fun _ => hfault.ic, .inr ⟨e, hfault⟩⟩
  · have hother : i ≠ .right ∧ i ≠ .left ∧ i ≠ .output := by
      rcases hform with rfl | rfl | rfl <;> decide
    obtain ⟨hright, hleft, houtput⟩ := hother
    exact ⟨hdone.sameLaunch, hdone.cellsUnchangedBut, hdone.mp_eq hright hleft, hdone.ic_eq,
      .inl ⟨hdone.noFault, hdone.out_eq houtput⟩⟩

end Sys2Proof.Machine
end

section
/-! PROOFS, 30_encoding.md. Decoding and encoding undo each other, on characters and on stored words; the table's words;
the whitespace table. -/

namespace Sys2Proof

/-! ### Characters -/

theorem nop_wf_iff {ws : List Char} {c : Char} : (Instr.nop c).wf ws = true ↔ c ∉ opcodeChars ∧ c ∈ ws := by
  simp [Instr.wf]

theorem invalid_wf_iff {ws : List Char} {c : Char} :
    (Instr.invalid c).wf ws = true ↔ c ∉ opcodeChars ∧ c ∉ ws := by
  simp [Instr.wf]

/-- A character that is no opcode decodes by `WS` alone (R41). -/
theorem decode_of_not_opcode {ws : List Char} {c : Char} (hop : c ∉ opcodeChars) :
    decode ws c = if c ∈ ws then .nop c else .invalid c :=
  ((decode_opcode_or_rest ws c).resolve_left hop).2

theorem decode_nop {ws : List Char} {c : Char} (hop : c ∉ opcodeChars) (hws : c ∈ ws) : decode ws c = .nop c := by
  rw [decode_of_not_opcode hop, if_pos hws]

theorem decode_invalid {ws : List Char} {c : Char} (hop : c ∉ opcodeChars) (hws : c ∉ ws) :
    decode ws c = .invalid c := by
  rw [decode_of_not_opcode hop, if_neg hws]

/-- A character decodes to a well-formed instruction: `nop` and `invalid` only come after every opcode is ruled out
(R41). -/
theorem decode_wf (ws : List Char) (c : Char) : (decode ws c).wf ws = true := by
  by_cases hop : c ∈ opcodeChars
  · simp only [opcodeChars, List.mem_cons, List.not_mem_nil, or_false] at hop
    rcases hop with rfl | rfl | rfl | rfl | rfl | rfl | rfl | rfl <;> rfl
  · by_cases hws : c ∈ ws
    · rw [decode_nop hop hws]
      exact nop_wf_iff.mpr ⟨hop, hws⟩
    · rw [decode_invalid hop hws]
      exact invalid_wf_iff.mpr ⟨hop, hws⟩

/-- The character of a well-formed instruction decodes to it (R40, R42, R43). -/
theorem decode_encode {ws : List Char} {i : Instr} (h : i.wf ws = true) : decode ws (encode i) = i := by
  cases i with
  | nop c =>
    obtain ⟨hop, hws⟩ := nop_wf_iff.mp h
    exact decode_nop hop hws
  | invalid c =>
    obtain ⟨hop, hws⟩ := invalid_wf_iff.mp h
    exact decode_invalid hop hws
  | _ => rfl

/-! ### Codes and stored words -/

/-- A code names a character exactly when it is that character's code point (R38). -/
theorem charOfCode_eq_ok_iff {w : Nat} {c : Char} : charOfCode w = .ok c ↔ c.toNat = w := by
  constructor
  · intro h
    unfold charOfCode at h
    split at h
    · cases h
    · split at h
      · next hvalid =>
        cases h
        rw [Char.toNat_ofNat, if_pos hvalid]
      · cases h
  · rintro rfl
    exact charOfCode_toNat c

/-- A word decodes to what the character of that code decodes to (R38). -/
theorem decodeWord_eq_ok_iff {ws : List Char} {w : Nat} {i : Instr} :
    decodeWord ws w = .ok i ↔ ∃ c : Char, c.toNat = w ∧ decode ws c = i := by
  simp only [← charOfCode_eq_ok_iff, decodeWord]
  cases charOfCode w <;> simp

theorem decodeWord_toNat (ws : List Char) (c : Char) : decodeWord ws c.toNat = .ok (decode ws c) :=
  decodeWord_eq_ok_iff.mpr ⟨c, rfl, rfl⟩

theorem exists_decodeWord_eq_ok_iff (ws : List Char) (w : Nat) :
    (∃ i, decodeWord ws w = .ok i) ↔ ∃ c : Char, c.toNat = w := by
  simp only [decodeWord_eq_ok_iff]
  exact ⟨fun ⟨_, c, hc, _⟩ => ⟨c, hc⟩, fun ⟨c, hc⟩ => ⟨_, c, hc, rfl⟩⟩

theorem encodeWord_toNat (i : Instr) : (encodeWord i).toNat = (encode i).toNat := charWord_toNat (encode i)

/-- The code points of characters are the Unicode scalar values (R47). -/
theorem exists_char_toNat_iff (w : Nat) : (∃ c : Char, c.toNat = w) ↔ Nat.isValidChar w := by
  constructor
  · rintro ⟨c, rfl⟩
    exact c.valid
  · exact fun hvalid => ⟨Char.ofNat w, by rw [Char.toNat_ofNat, if_pos hvalid]⟩

/-- The 24 bits of a table word hold every character's code, so the default machine reads the character from it. -/
theorem decodeTableWord_toNat (c : Char) : decodeTableWord 24 c.toNat = some (decode Config.default.ws c) := by
  have hlt : c.toNat < 2 ^ 24 := (char_lt c).trans (by decide)
  rw [decodeTableWord, Nat.mod_eq_of_lt hlt, decodeWord_toNat]

/-- A character is in a list exactly when its code point is among the list's code points. -/
theorem mem_iff_toNat_mem_map (c : Char) (l : List Char) : c ∈ l ↔ c.toNat ∈ l.map Char.toNat :=
  (List.mem_map_of_injective fun _ _ => Char.toNat_inj.mp).symm

/-! ### The statements -/

/-- Settles O3: the stored word is the code of the instruction's character, and that character decodes back. -/
theorem decodeUndoesEncode : Obligations.DecodeUndoesEncode := by
  intro ws i hwf
  rw [encodeWord_toNat, decodeWord_toNat, decode_encode hwf]

/-- Settles O4: on characters by the decoder's cases, on words by the character that the word names. -/
theorem encodeUndoesDecode : Obligations.EncodeUndoesDecode := by
  refine ⟨fun ws c => ⟨decode_wf ws c, Machine.encode_decode ws c⟩, fun ws w i h => ?_⟩
  obtain ⟨c, rfl, rfl⟩ := decodeWord_eq_ok_iff.mp h
  rw [encodeWord_toNat, Machine.encode_decode]

/-- Settles O1: a code point names one character, so each opcode's clause is about that opcode, and the last clause is
about the characters outside the opcode list. -/
theorem decodeClassifiesByCodePoint : Obligations.DecodeClassifiesByCodePoint := by
  intro ws c
  have opcode (d : Char) (h : c.toNat = d.toNat) : decode ws c = decode ws d := by rw [Char.toNat_inj.mp h]
  refine ⟨opcode '>', opcode '<', opcode '+', opcode '-', opcode '.', opcode ',', opcode '[', opcode ']',
    fun h => ?_⟩
  have hop : c ∉ opcodeChars := fun hmem => h ((mem_iff_toNat_mem_map c opcodeChars).mp hmem)
  exact ⟨decode_nop hop, decode_invalid hop⟩

/-- Settles O2: each word is the code of its row's character. -/
theorem tableWordsDecodeToTheirInstructions : Obligations.TableWordsDecodeToTheirInstructions :=
  ⟨decodeTableWord_toNat '>', decodeTableWord_toNat '<', decodeTableWord_toNat '+', decodeTableWord_toNat '-',
    decodeTableWord_toNat '.', decodeTableWord_toNat ',', decodeTableWord_toNat '[', decodeTableWord_toNat ']',
    decodeTableWord_toNat (Char.ofNat 0x3000), decodeTableWord_toNat 'a'⟩

/-- Settles O5: a word decodes exactly when it is some character's code point. -/
theorem onlyScalarValuesAreInstructions : Obligations.OnlyScalarValuesAreInstructions := by
  intro ws w
  calc (∃ i, decodeWord ws w = .ok i)
      ↔ ∃ c : Char, c.toNat = w := exists_decodeWord_eq_ok_iff ws w
    _ ↔ Nat.isValidChar w := exists_char_toNat_iff w
    _ ↔ w ≤ 0xD7FF ∨ (0xE000 ≤ w ∧ w ≤ 0x10FFFF) := by unfold Nat.isValidChar; omega

/-- Settles O6: the table's code points are those of the listed characters; the default configuration is checked by
evaluation. -/
theorem defaultWhitespaceIsTheTable : Obligations.DefaultWhitespaceIsTheTable := by
  refine ⟨fun c => ?_, by decide⟩
  have hcodes : Config.default.ws.map Char.toNat =
      [0x0009, 0x000A, 0x000B, 0x000C, 0x000D, 0x0020, 0x0085, 0x00A0, 0x1680, 0x2000, 0x2001, 0x2002, 0x2003, 0x2004,
        0x2005, 0x2006, 0x2007, 0x2008, 0x2009, 0x200A, 0x2028, 0x2029, 0x202F, 0x205F, 0x3000] := rfl
  rw [mem_iff_toNat_mem_map, hcodes]
  simp only [List.mem_cons, List.not_mem_nil, or_false]
  omega

end Sys2Proof
end

section
/-! PROOFS, 40_engine_cycle.md. What a step is in each `STATUS` (R48 to R55), as equations; the validate step's outcomes;
progress; the pipeline's probe. -/

namespace Sys2Proof.Machine

/-! ### The step in each status -/

section

variable {s : State}

theorem step_validate (h : s.status = .validate) : step s = .next (validateStep s) := by
  simp only [step, h]

theorem step_run (h : s.status = .run) : step s = instructionStep s := by
  simp only [step, h]

/-- Past the end of the program the step is the normal halt (R55). -/
theorem step_pastEnd (hrun : s.status = .run) (hip : s.prog.length ≤ s.ip) : step s = .next (halt s) := by
  rw [step_run hrun, instructionStep, (progRead_eq_none_iff s.ip s).mpr hip]

/-- At a character the step executes the instruction that character decodes to (R51). -/
theorem step_fetch {c : Char} (hrun : s.status = .run) (hfetch : s.prog[s.ip]? = some c) :
    step s = exec (decode s.cfg.ws c) s := by
  have hread : progRead s.ip s = some c := hfetch
  rw [step_run hrun, instructionStep, hread]

end

/-- Settles O10; a well-formed instruction's character decodes back to it. -/
theorem stepExecutesTheFetchedInstruction : Obligations.StepExecutesTheFetchedInstruction := by
  intro s hrun
  refine ⟨step_pastEnd hrun, fun c => step_fetch hrun, fun i hwf hfetch => ?_⟩
  rw [step_fetch hrun hfetch, decode_encode hwf]

/-- Settles O11. -/
theorem normalHaltReturnsTheOutput : Obligations.NormalHaltReturnsTheOutput :=
  fun _ hrun hip => ⟨step_pastEnd hrun hip, rfl⟩

/-! ### The validate step (R49, R50) -/

section

variable {s : State}

theorem validateStep_of_charDefect {e : ErrKind} (h : charDefect s = some e) : validateStep s = raise e s := by
  simp only [validateStep, h]

/-- With no defect the validate step only starts the run (R49). -/
theorem validateStep_of_no_defect (hchar : charDefect s = none) (hbracket : bracketDefect s = none) :
    validateStep s = setStatus .run s := by
  simp only [validateStep, hchar, hbracket]

/-- The character check finds nothing in a program without an invalid character, whenever it looks (D4). -/
theorem charDefect_of_firstInvalid_eq_none (h : firstInvalid s.cfg.ws s.prog = none) : charDefect s = none := by
  refine Option.eq_none_iff_forall_ne_some.mpr fun e he => ?_
  obtain ⟨-, c, hc, -⟩ := (charDefect_eq_some_iff s e).mp he
  simp [h] at hc

theorem bracketDefect_of_lazy (h : s.cfg.bracketCheck = .lazy) : bracketDefect s = none := by
  simp only [bracketDefect, h]

end

theorem isInvalid_eq_true_iff (ws : List Char) (c : Char) : isInvalid ws c = true ↔ decode ws c = .invalid c :=
  decide_eq_true_iff

theorem firstInvalid_eq_none_iff (ws prog : List Char) :
    firstInvalid ws prog = none ↔ ∀ c ∈ prog, decode ws c ≠ .invalid c := by
  simp only [firstInvalid, List.find?_eq_none, isInvalid_eq_true_iff, ne_eq]

/-- An invalid character with none at a lower position is the one R50 names. -/
theorem firstInvalid_eq_some_of_lowest {ws prog : List Char} {p : Nat} {c : Char} (hc : prog[p]? = some c)
    (hinvalid : decode ws c = .invalid c)
    (hlowest : ∀ (q : Nat) (d : Char), q < p → prog[q]? = some d → decode ws d ≠ .invalid d) :
    firstInvalid ws prog = some c := by
  obtain ⟨hp, hget⟩ := List.getElem?_eq_some_iff.mp hc
  refine List.find?_eq_some_iff_getElem.mpr ⟨(isInvalid_eq_true_iff ws c).mpr hinvalid, p, hp, hget, fun q hq => ?_⟩
  have hvalid := hlowest q prog[q] hq (List.getElem?_eq_getElem _)
  simpa [isInvalid] using hvalid

/-- Settles O12: without an invalid character neither check finds a defect, and the lowest one is the defect the
character check reports. -/
theorem validateReportsTheFirstInvalidCharacter : Obligations.ValidateReportsTheFirstInvalidCharacter := by
  intro s hval heager
  rw [step_validate hval]
  refine ⟨fun hnone hlazy => ?_, fun p c hc hinvalid hlowest => ?_⟩
  · have hchar := charDefect_of_firstInvalid_eq_none ((firstInvalid_eq_none_iff _ _).mpr hnone)
    rw [validateStep_of_no_defect hchar (bracketDefect_of_lazy hlazy)]
    rfl
  · have hfirst := firstInvalid_eq_some_of_lowest hc hinvalid hlowest
    have hdefect := (charDefect_eq_some_iff s _).mpr ⟨heager, c, hfirst, rfl⟩
    exact ⟨_, congrArg _ (validateStep_of_charDefect hdefect), takesFault_raise _ s⟩

/-! ### Progress -/

/-- With `MP` on the tape an access of the current cell goes on to whatever its value leads to. -/
theorem exists_withCell_eq_next {s : State} {k : Byte → StepOutcome} (hmp : s.mp < s.cfg.tapeSize)
    (hk : ∀ v, ∃ t, k v = .next t) : ∃ t, withCell s k = .next t := by
  rw [withCell_inTape k hmp]
  exact hk _

/-- With `MP` on the tape every instruction completes or takes its fault: no access is to a missing cell (R13, R101). -/
theorem exists_exec_eq_next {s : State} (i : Instr) (hmp : s.mp < s.cfg.tapeSize) : ∃ t, exec i s = .next t := by
  cases i with
  | right =>
    by_cases hlast : s.mp + 1 = s.cfg.tapeSize
    · exact ⟨_, if_pos hlast⟩
    · exact ⟨_, if_neg hlast⟩
  | left =>
    by_cases hfirst : s.mp = 0
    · exact ⟨_, if_pos hfirst⟩
    · exact ⟨_, if_neg hfirst⟩
  | inc => exact exists_withCell_eq_next hmp fun _ => ⟨_, storeCell_inTape _ hmp⟩
  | dec => exact exists_withCell_eq_next hmp fun _ => ⟨_, storeCell_inTape _ hmp⟩
  | output => exact exists_withCell_eq_next hmp fun _ => ⟨_, rfl⟩
  | input =>
    show ∃ t, execInput s = .next t
    unfold execInput
    split
    · exact ⟨_, rfl⟩
    · next b u hpop =>
      obtain ⟨-, rfl⟩ := (inPop_eq_some_iff s u b).mp hpop
      exact ⟨_, storeCell_inTape b hmp⟩
  | loop => exact exists_withCell_eq_next hmp fun _ => by split <;> exact ⟨_, rfl⟩
  | endloop => exact exists_withCell_eq_next hmp fun _ => by split <;> exact ⟨_, rfl⟩
  | nop c => exact ⟨_, rfl⟩
  | invalid c => exact ⟨_, rfl⟩

/-- Settles O16, by the status: the validate step and the halt always complete, and an executed instruction does since
the invariant keeps `MP` on the tape. -/
theorem nonTerminalStatesHaveAStep : Obligations.NonTerminalStatesHaveAStep := by
  intro s hinv hgoes
  cases hst : s.status with
  | validate => exact ⟨_, step_validate hst⟩
  | run =>
    cases hfetch : s.prog[s.ip]? with
    | none => exact ⟨_, step_pastEnd hst (List.getElem?_eq_none_iff.mp hfetch)⟩
    | some c =>
      rw [step_fetch hst hfetch]
      exact exists_exec_eq_next _ hinv.mpInTape
  | halted => exact absurd (.inl hst) hgoes
  | faulted => exact absurd (.inr hst) hgoes

/-! ### The pipeline's probe (log 3) -/

/-- A word the table decoder reads names a character, which decodes to the instruction read. -/
theorem exists_charOfCode_of_decodeTableWord {nbits w : Nat} {i : Instr} (h : decodeTableWord nbits w = some i) :
    ∃ c, charOfCode (w % 2 ^ nbits) = .ok c ∧ decode Config.default.ws c = i := by
  unfold decodeTableWord at h
  split at h
  · next hword =>
    cases h
    simpa only [charOfCode_eq_ok_iff] using decodeWord_eq_ok_iff.mp hword
  · cases h

theorem withFetchWord_eq {s : State} {nbits w : Nat} {c : Char} (h : charOfCode (w % 2 ^ nbits) = .ok c) :
    s.withFetchWord nbits w = { s with prog := placeChar s.prog s.ip c, status := .run } := by
  simp only [State.withFetchWord, placeWord, h]

/-- Settles O44: the placed character is the one the next step fetches. -/
theorem fetchWordRunsNext : Obligations.FetchWordRunsNext := by
  intro s nbits w i hws hword
  obtain ⟨c, hcode, rfl⟩ := exists_charOfCode_of_decodeTableWord hword
  rw [withFetchWord_eq hcode, ← hws]
  exact ⟨step_fetch rfl (placeChar_get s.prog s.ip c), rfl⟩

end Sys2Proof.Machine
end

section
/-! PROOFS, 41_pointer.md. What `>` and `<` are at the end of the tape they move towards, and away from it, as
equations. -/

namespace Sys2Proof.Machine

section

variable {s : State}

/-- Off the last cell `>` completes (R57). -/
theorem exec_right_of_not_last (h : s.mp + 1 ≠ s.cfg.tapeSize) :
    exec .right s = .next (advance (setMp (s.mp + 1) s)) :=
  if_neg h

/-- At the last cell `>` takes its fault (R57). -/
theorem exec_right_of_last (h : s.mp + 1 = s.cfg.tapeSize) : exec .right s = .next (raise .outOfBoundsAccess s) :=
  if_pos h

/-- Off cell 0 `<` completes (R58). -/
theorem exec_left_of_ne_zero (h : s.mp ≠ 0) : exec .left s = .next (advance (setMp (s.mp - 1) s)) :=
  if_neg h

/-- At cell 0 `<` takes its fault (R58). -/
theorem exec_left_of_eq_zero (h : s.mp = 0) : exec .left s = .next (raise .outOfBoundsAccess s) :=
  if_pos h

end

/-- Settles O17: U+003E is the encoding of `right`, and the two cases are those of `MP` against the last cell. -/
theorem rightMovesThePointerUp : Obligations.RightMovesThePointerUp := by
  refine ⟨fun ws => decode_encode (i := .right) rfl, fun s => ⟨fun hoff => ?_, fun hlast => ?_⟩⟩
  · exact exec_right_of_not_last hoff
  · exact ⟨_, exec_right_of_last hlast, takesFault_raise _ s⟩

/-- Settles O18: U+003C is the encoding of `left`, and the two cases are those of `MP` against cell 0. -/
theorem leftMovesThePointerDown : Obligations.LeftMovesThePointerDown := by
  refine ⟨fun ws => decode_encode (i := .left) rfl, fun s => ⟨fun hoff => ?_, fun hfirst => ?_⟩⟩
  · exact exec_left_of_ne_zero hoff
  · exact ⟨_, exec_left_of_eq_zero hfirst, takesFault_raise _ s⟩

end Sys2Proof.Machine
end

section
/-! PROOFS, 42_cell_arith.md. The two operations on a byte; what `+` and `-` are with `MP` on the tape, as equations; that
writing back what a cell held gives back a canonical tape. -/

namespace Sys2Proof.Machine

/-! ### The byte operations -/

@[simp] theorem cellInc_toNat (v : Byte) : (cellInc v).toNat = (v.toNat + 1) % 256 := by
  simp [cellInc]

@[simp] theorem cellDec_toNat (v : Byte) : (cellDec v).toNat = (v.toNat + 255) % 256 := by
  simp [cellDec]

/-- 255 and 1 add up to the modulus (R60). -/
theorem cellDec_cellInc (v : Byte) : cellDec (cellInc v) = v := by
  apply BitVec.eq_of_toNat_eq
  have hv := v.isLt
  rw [cellDec_toNat, cellInc_toNat]
  omega

theorem cellInc_cellDec (v : Byte) : cellInc (cellDec v) = v := by
  apply BitVec.eq_of_toNat_eq
  have hv := v.isLt
  rw [cellInc_toNat, cellDec_toNat]
  omega

/-! ### Storing what a cell held before -/

/-- The canonical form keeps no trace of the cell that was written in between. -/
theorem Memory.write_write_read {m : Memory} (h : m.wf = true) (a : Nat) (v : Byte) :
    (m.write a v).write a (m.read a) = m := by
  refine Memory.eq_of_read_eq _ m (Memory.write_wf _ a _ (Memory.write_wf m a v h)) h fun b => ?_
  by_cases hb : b = a
  · rw [hb, Memory.read_write_same]
  · rw [Memory.read_write_other _ a b _ hb, Memory.read_write_other m a b v hb]

/-- Two completed stores to one cell, the second of what the cell held before the first. -/
theorem advance_write_write_read {s t : State} {v : Byte} (h : s.tape.wf = true)
    (ht : t = advance { s with tape := s.tape.write s.mp v }) :
    advance { t with tape := t.tape.write t.mp (s.tape.read s.mp) } = { s with ip := s.ip + 2 } := by
  have htape : t.tape.write t.mp (s.tape.read s.mp) = s.tape := by
    rw [ht]
    exact Memory.write_write_read h s.mp v
  rw [htape, ht]
  rfl

/-! ### The two instructions -/

section

variable {s : State}

/-- With `MP` on the tape `+` completes (R59). -/
theorem exec_inc_inTape (h : s.mp < s.cfg.tapeSize) :
    exec .inc s = .next (advance { s with tape := s.tape.write s.mp (cellInc (s.tape.read s.mp)) }) :=
  (withCell_inTape _ h).trans (storeCell_inTape _ h)

/-- With `MP` on the tape `-` completes (R60). -/
theorem exec_dec_inTape (h : s.mp < s.cfg.tapeSize) :
    exec .dec s = .next (advance { s with tape := s.tape.write s.mp (cellDec (s.tape.read s.mp)) }) :=
  (withCell_inTape _ h).trans (storeCell_inTape _ h)

end

/-- Settles O31: the second instruction stores what the cell held before the first, since the byte operations undo each
other. -/
theorem incAndDecUndoEachOther : Obligations.IncAndDecUndoEachOther := by
  intro s t u hwf
  refine ⟨fun hinc hdec => ?_, fun hdec hinc => ?_⟩
  · obtain ⟨-, ht⟩ := execInc_cases hinc
    obtain ⟨-, hu⟩ := execDec_cases hdec
    have hback : cellDec (t.tape.read t.mp) = s.tape.read s.mp := by simp [ht, cellDec_cellInc]
    rw [hu, hback]
    exact advance_write_write_read hwf ht
  · obtain ⟨-, ht⟩ := execDec_cases hdec
    obtain ⟨-, hu⟩ := execInc_cases hinc
    have hback : cellInc (t.tape.read t.mp) = s.tape.read s.mp := by simp [ht, cellInc_cellDec]
    rw [hu, hback]
    exact advance_write_write_read hwf ht

/-- Settles O19: U+002B is the encoding of `inc`, the cell reads as stored, and the rest is the frame of a completed
instruction. -/
theorem incAddsOneModulo256 : Obligations.IncAddsOneModulo256 := by
  refine ⟨fun ws => decode_encode (i := .inc) rfl, fun s hmp => ⟨_, exec_inc_inTape hmp, ?_⟩⟩
  have hdone := Completes.inc hmp
  exact ⟨by simp, hdone.cellsUnchangedBut, rfl, rfl, rfl, rfl, hdone.noFault, hdone.sameLaunch⟩

/-- Settles O20: U+002D is the encoding of `dec`, the cell reads as stored, and the rest is the frame of a completed
instruction. -/
theorem decSubtractsOneModulo256 : Obligations.DecSubtractsOneModulo256 := by
  refine ⟨fun ws => decode_encode (i := .dec) rfl, fun s hmp => ⟨_, exec_dec_inTape hmp, ?_⟩⟩
  have hdone := Completes.dec hmp
  exact ⟨by simp, hdone.cellsUnchangedBut, rfl, rfl, rfl, rfl, hdone.noFault, hdone.sameLaunch⟩

end Sys2Proof.Machine
end

section
/-! PROOFS, 43_io.md. What `.` is with `MP` on the tape, and `,` with a byte left and with none, as equations. -/

namespace Sys2Proof.Machine

section

variable {s : State}

/-- With `MP` on the tape `.` completes (R61). -/
theorem exec_output_inTape (h : s.mp < s.cfg.tapeSize) :
    exec .output s = .next (advance (outPush (s.tape.read s.mp) s)) :=
  withCell_inTape _ h

/-- With a byte at `IC` and `MP` on the tape `,` completes (R62). -/
theorem exec_input_of_byte {b : Byte} (hbyte : s.input[s.ic]? = some b) (hmp : s.mp < s.cfg.tapeSize) :
    exec .input s = .next (advance { s with ic := s.ic + 1, tape := s.tape.write s.mp b }) := by
  have hpop : inPop s = some (b, { s with ic := s.ic + 1 }) := (inPop_eq_some_iff s _ b).mpr ⟨hbyte, rfl⟩
  simp only [exec, execInput, hpop]
  exact storeCell_inTape b hmp

/-- With no byte left `,` takes its fault (R62). -/
theorem exec_input_of_exhausted (h : s.input.length ≤ s.ic) :
    exec .input s = .next (raise .unexpectedEndOfInput s) := by
  have hpop : inPop s = none := (inPop_eq_none_iff s).mpr h
  simp only [exec, execInput, hpop]

end

/-- Settles O21: U+002E is the encoding of `output`, and the completed `.` is the state named. -/
theorem outputAppendsTheCurrentCell : Obligations.OutputAppendsTheCurrentCell :=
  ⟨fun _ => decode_encode (i := .output) rfl, fun _ => exec_output_inTape⟩

/-- Settles O22: U+002C is the encoding of `input`; with a byte left the cell reads as stored and the rest is the frame of
a completed instruction, with none left `,` is one fault entry. -/
theorem inputConsumesOneByte : Obligations.InputConsumesOneByte := by
  refine ⟨fun ws => decode_encode (i := .input) rfl, fun s b hmp hbyte => ?_, fun s hend => ?_⟩
  · have hdone := Completes.input b hbyte hmp
    exact ⟨_, exec_input_of_byte hbyte hmp, by simp, hdone.cellsUnchangedBut, rfl, rfl, rfl, rfl, hdone.noFault,
      hdone.sameLaunch⟩
  · exact ⟨_, exec_input_of_exhausted hend, takesFault_raise _ s⟩

end Sys2Proof.Machine
end

section
/-! PROOFS, 44_loops.md. Where a proper matcher call can end (R75); what `[` and `]` are with `MP` on the tape, as
equations; that no other instruction sets `IP` to anything but `IP + 1`. -/

namespace Sys2Proof.Machine

/-! ### Where a proper matcher call ends (R75 (b)) -/

/-- A scan with the depth counter positive ends at a character that lowers it: the counter only reaches 0 from above. -/
theorem scan_ok_of_pos {dir : Direction} {depth : Int} {l : List (Char × Nat)} {b : Nat} (hdepth : 0 < depth)
    (h : scan dir depth l = .ok b) : ∃ c, (c, b) ∈ l ∧ depthChange dir c < 0 := by
  induction l generalizing depth with
  | nil => cases h
  | cons x l ih =>
    obtain ⟨c, pos⟩ := x
    simp only [scan] at h
    split at h
    · cases h
    · split at h
      · next hzero =>
        cases h
        exact ⟨c, List.mem_cons_self, by omega⟩
      · obtain ⟨d, hmem, hlowers⟩ := ih (by omega) h
        exact ⟨d, List.mem_cons_of_mem _ hmem, hlowers⟩

/-- Forward only `]` lowers the depth counter (R70). -/
theorem eq_close_of_depthChange_forward_neg {c : Char} (h : depthChange .forward c < 0) : c = ']' := by
  by_cases ho : c = '['
  · subst ho
    simp [Direction.sign] at h
  · by_contra hc
    simp [depthChange_other _ c ho hc] at h

/-- Backward only `[` lowers the depth counter (R70). -/
theorem eq_open_of_depthChange_backward_neg {c : Char} (h : depthChange .backward c < 0) : c = '[' := by
  by_cases hc : c = ']'
  · subst hc
    simp [Direction.sign] at h
  · by_contra ho
    simp [depthChange_other _ c ho hc] at h

/-- A forward scan visits no position before its start. -/
theorem le_of_mem_scanPath_forward {prog : List Char} {pos : Int} {c : Char} {b : Nat}
    (h : (c, b) ∈ scanPath prog .forward pos) : pos ≤ b := by
  unfold scanPath at h
  split at h
  · cases h
  · obtain ⟨j, hlt, hj⟩ := List.mem_drop_iff_getElem.mp h
    simp only [List.getElem_zipIdx, Prod.mk.injEq] at hj
    omega

/-- A backward scan visits no position after its start. -/
theorem le_of_mem_scanPath_backward {prog : List Char} {pos : Int} {c : Char} {b : Nat}
    (h : (c, b) ∈ scanPath prog .backward pos) : b ≤ pos := by
  unfold scanPath at h
  split at h
  · cases h
  · obtain ⟨j, hlt, hj⟩ := List.mem_take_iff_getElem.mp (List.mem_reverse.mp h)
    simp only [List.getElem_zipIdx, Prod.mk.injEq] at hj
    omega

/-- A forward call from a `[` goes on behind it with one bracket open. -/
theorem findBoundary_forward_of_open {prog : List Char} {p : Nat} (h : prog[p]? = some '[') :
    findBoundary prog p .forward = scanFrom prog .forward 1 (p + 1 : Nat) := by
  rw [findBoundary, scanFrom, scanPath_forward_cons h]
  simp [scan, Direction.sign, scanFrom]

/-- A backward call from a `]` goes on before it with one bracket open. -/
theorem findBoundary_backward_of_close {prog : List Char} {p : Nat} (h : prog[p]? = some ']') :
    findBoundary prog p .backward = scanFrom prog .backward 1 ((p : Int) - 1) := by
  rw [findBoundary, scanFrom, scanPath_backward_cons h]
  simp [scan, Direction.sign, scanFrom]

/-- A proper forward call returns a `]` after its `[`. -/
theorem findBoundary_forward_ok {prog : List Char} {p b : Nat} (h : prog[p]? = some '[')
    (hok : findBoundary prog p .forward = .ok b) : p < b ∧ prog[b]? = some ']' := by
  rw [findBoundary_forward_of_open h] at hok
  obtain ⟨c, hmem, hlowers⟩ := scan_ok_of_pos Int.one_pos hok
  obtain rfl := eq_close_of_depthChange_forward_neg hlowers
  exact ⟨Int.ofNat_le.mp (le_of_mem_scanPath_forward hmem), scanPath_mem hmem⟩

/-- A proper backward call returns a `[` before its `]`. -/
theorem findBoundary_backward_ok {prog : List Char} {p b : Nat} (h : prog[p]? = some ']')
    (hok : findBoundary prog p .backward = .ok b) : b < p ∧ prog[b]? = some '[' := by
  rw [findBoundary_backward_of_close h] at hok
  obtain ⟨c, hmem, hlowers⟩ := scan_ok_of_pos Int.one_pos hok
  obtain rfl := eq_open_of_depthChange_backward_neg hlowers
  exact ⟨Int.ofNat_lt.mp (Int.lt_of_le_sub_one (le_of_mem_scanPath_backward hmem)), scanPath_mem hmem⟩

/-! ### The two instructions -/

section

variable {s : State} {dir : Direction}

theorem jumpPastBoundary_of_ok {b : Nat} (h : findBoundary s.prog s.ip dir = .ok b) :
    jumpPastBoundary dir s = jump (b + 1) s := by
  simp only [jumpPastBoundary, h]

theorem jumpPastBoundary_of_error {e : ErrKind} (h : findBoundary s.prog s.ip dir = .error e) :
    jumpPastBoundary dir s = raise e s := by
  simp only [jumpPastBoundary, h]

/-- On a nonzero cell `[` advances and calls no matcher (R63). -/
theorem exec_loop_of_nonzero (hmp : s.mp < s.cfg.tapeSize) (h : s.tape.read s.mp ≠ 0) :
    exec .loop s = .next (advance s) :=
  (withCell_inTape _ hmp).trans (if_neg fun hzero => h (of_decide_eq_true hzero))

/-- On a zero cell `[` takes the forward jump (R63). -/
theorem exec_loop_of_zero (hmp : s.mp < s.cfg.tapeSize) (h : s.tape.read s.mp = 0) :
    exec .loop s = .next (jumpPastBoundary .forward s) :=
  (withCell_inTape _ hmp).trans (if_pos (decide_eq_true h))

/-- On a zero cell `]` advances and calls no matcher (R64). -/
theorem exec_endloop_of_zero (hmp : s.mp < s.cfg.tapeSize) (h : s.tape.read s.mp = 0) :
    exec .endloop s = .next (advance s) :=
  (withCell_inTape _ hmp).trans (if_pos (decide_eq_true h))

/-- On a nonzero cell `]` takes the backward jump (R64). -/
theorem exec_endloop_of_nonzero (hmp : s.mp < s.cfg.tapeSize) (h : s.tape.read s.mp ≠ 0) :
    exec .endloop s = .next (jumpPastBoundary .backward s) :=
  (withCell_inTape _ hmp).trans (if_neg fun hzero => h (of_decide_eq_true hzero))

end

/-- Settles O23: U+005B is the encoding of `loop`; on a zero cell the jump ends as its matcher call does. -/
theorem loopSkipsOnAZeroCell : Obligations.LoopSkipsOnAZeroCell := by
  refine ⟨fun ws => decode_encode (i := .loop) rfl, fun s hmp => ⟨exec_loop_of_nonzero hmp, fun b hzero hscan => ?_,
    fun hzero hscan => ⟨raise .unbalancedBrackets s, ?_, takesFault_raise _ s⟩⟩⟩
  · rw [exec_loop_of_zero hmp hzero, jumpPastBoundary_of_ok hscan]
    rfl
  · rw [exec_loop_of_zero hmp hzero, jumpPastBoundary_of_error hscan]

/-- Settles O24: U+005D is the encoding of `endloop`; on a nonzero cell the jump ends as its matcher call does. -/
theorem endloopRepeatsOnANonzeroCell : Obligations.EndloopRepeatsOnANonzeroCell := by
  refine ⟨fun ws => decode_encode (i := .endloop) rfl, fun s hmp => ⟨exec_endloop_of_zero hmp,
    fun b hnonzero hscan => ?_, fun hnonzero hscan => ⟨raise .unbalancedBrackets s, ?_, takesFault_raise _ s⟩⟩⟩
  · rw [exec_endloop_of_nonzero hmp hnonzero, jumpPastBoundary_of_ok hscan]
    rfl
  · rw [exec_endloop_of_nonzero hmp hnonzero, jumpPastBoundary_of_error hscan]

/-! ### Control transfers (R103) -/

/-- A completed instruction advances `IP` by one, or is a bracket that took its jump. -/
theorem Completes.ip_cases {s t : State} {i : Instr} (h : Completes s i t) :
    t.ip = s.ip + 1 ∨
    (i = .loop ∧ s.tape.read s.mp = 0 ∧ ∃ b, findBoundary s.prog s.ip .forward = .ok b ∧ t.ip = b + 1) ∨
    (i = .endloop ∧ s.tape.read s.mp ≠ 0 ∧ ∃ b, findBoundary s.prog s.ip .backward = .ok b ∧ t.ip = b + 1) := by
  cases h with
  | loopSkip b hzero hscan => exact .inr (.inl ⟨rfl, hzero, b, hscan, rfl⟩)
  | endloopRepeat b hnonzero hscan => exact .inr (.inr ⟨rfl, hnonzero, b, hscan, rfl⟩)
  | _ => exact .inl rfl

/-- In `RUN` with `IP` inside `PROG` a step without a fault completes the instruction whose encoding stands at `IP`. -/
theorem exists_completes_of_step {s t : State} (hrun : s.status = .run) (hip : s.ip < s.prog.length)
    (h : step s = .next t) (hok : t.status ≠ .faulted) :
    ∃ i, s.prog[s.ip]? = some (encode i) ∧ Completes s i t := by
  have hfetch : s.prog[s.ip]? = some s.prog[s.ip] := List.getElem?_eq_getElem hip
  rw [step_fetch hrun hfetch] at h
  rcases exec_cases h with ⟨e, -, rfl⟩ | hdone
  · exact absurd (raise_status e s) hok
  · exact ⟨_, by rw [encode_decode, hfetch], hdone⟩

/-- Settles O37: of the completed instructions only the brackets jump, and each calls the matcher properly, from the
bracket it is. -/
theorem onlyBracketsTransferControl : Obligations.OnlyBracketsTransferControl := by
  intro s t hrun hip h hok
  obtain ⟨i, hfetch, hdone⟩ := exists_completes_of_step hrun hip h hok
  rcases hdone.ip_cases with hadvance | ⟨rfl, hzero, b, hscan, ht⟩ | ⟨rfl, hnonzero, b, hscan, ht⟩
  · exact .inl hadvance
  · obtain ⟨hafter, hclose⟩ := findBoundary_forward_ok hfetch hscan
    exact .inr (.inl ⟨hfetch, hzero, b, hafter, hclose, ht⟩)
  · obtain ⟨hbefore, hopen⟩ := findBoundary_backward_ok hfetch hscan
    exact .inr (.inr ⟨hfetch, hnonzero, b, hbefore, hopen, ht⟩)

end Sys2Proof.Machine
end

section
/-! PROOFS, 45_nop_invalid.md. What a whitespace and an invalid character are in every state, as equations; that the run
phase under the eager character check meets no invalid one. -/

namespace Sys2Proof.Machine

/-- Whatever its character, `nop` only advances (R65). -/
theorem exec_nop (c : Char) (s : State) : exec (.nop c) s = .next (advance s) := rfl

/-- `invalid` is one fault entry with its own character (R66). -/
theorem exec_invalid (c : Char) (s : State) : exec (.invalid c) s = .next (raise (.unexpectedCharInCode c) s) := rfl

/-- Under the eager character check no position of a running program holds an invalid character (R49). -/
theorem State.Inv.decode_ne_invalid {s : State} {c : Char} (h : s.Inv) (heager : s.cfg.charCheck = .eager)
    (hrun : s.status = .run) (hc : c ∈ s.prog) : decode s.cfg.ws c ≠ .invalid c :=
  (firstInvalid_eq_none_iff _ _).mp (h.firstInvalid_eq_none heager hrun) c hc

/-- Settles O27: the character at `IP` stands in `PROG`, and the invariant leaves no invalid character there. -/
theorem eagerRunsMeetNoInvalidCharacter : Obligations.EagerRunsMeetNoInvalidCharacter :=
  fun _ _ h heager hrun hfetch => h.decode_ne_invalid heager hrun (List.mem_of_getElem? hfetch)

/-- Settles O25: past the opcodes a character of `WS` decodes to `nop`, and the completed `nop` is the state named. -/
theorem whitespaceOnlyAdvances : Obligations.WhitespaceOnlyAdvances :=
  ⟨fun _ _ hws hop => decode_nop hop hws, exec_nop⟩

/-- Settles O26: past the opcodes a character outside `WS` decodes to `invalid`, which is one fault entry. -/
theorem invalidCharacterRaisesItsFault : Obligations.InvalidCharacterRaisesItsFault :=
  ⟨fun _ _ hws hop => decode_invalid hop hws, fun c s => ⟨_, exec_invalid c s, takesFault_raise _ s⟩⟩

end Sys2Proof.Machine
end

section
/-! PROOFS, 46_bracket_matcher.md. One iteration of the matcher's loop; the depth counter as the opening less the
closing brackets of the characters visited; the boundary as the first position where that counter is 0, hence as
the end of the shortest even segment. -/

namespace Sys2Proof.Machine

/-! ### One iteration of the loop (R68, R70) -/

section

variable {prog : List Char} {dir : Direction} {depth pos : Int} {p : Nat} {c : Char}

/-- Outside the program the scan has run off an end (R72). -/
theorem scanFrom_outside (h : pos < 0 ∨ (prog.length : Int) ≤ pos) :
    scanFrom prog dir depth pos = .error .unbalancedBrackets := by
  rw [scanFrom, scanPath_outside h, scan]

/-- The first position a scan visits, and those after it in its direction. -/
theorem scanPath_cons (h : prog[p]? = some c) :
    scanPath prog dir p = (c, p) :: scanPath prog dir (p + dir.sign) := by
  cases dir with
  | forward => exact scanPath_forward_cons h
  | backward => exact scanPath_backward_cons h

/-- Inside the program the scan counts the character, tests the counter twice and goes on. -/
theorem scanFrom_inside (h : prog[p]? = some c) :
    scanFrom prog dir depth p =
      if depth + depthChange dir c < 0 then .error .unbalancedBrackets
      else if depth + depthChange dir c = 0 then .ok p
      else scanFrom prog dir (depth + depthChange dir c) (p + dir.sign) := by
  rw [scanFrom, scanPath_cons h, scan, scanFrom]

/-- The counter after one more character, as R68 writes it. -/
theorem add_depthChange (dir : Direction) (depth : Int) (c : Char) :
    depth + depthChange dir c =
      if c = '[' then depth + dir.sign else if c = ']' then depth - dir.sign else depth := by
  unfold depthChange
  split
  · rfl
  · split
    · rfl
    · exact Int.add_zero depth

end

/-- Settles O45: the start is the definition, an iteration is `scanFrom_outside` or `scanFrom_inside`. -/
theorem matcherIsTheLoopOfTheRule : Obligations.MatcherIsTheLoopOfTheRule := by
  refine ⟨rfl, rfl, fun _ _ _ => rfl, fun _ _ _ _ => scanFrom_outside, fun prog dir depth depth' pos c hc hdepth => ?_⟩
  rw [hdepth, ← add_depthChange]
  exact scanFrom_inside hc

/-- Settles O46: a returned position is one the scan visited, and the scan raises one fault only. -/
theorem matcherReturnsAPositionOrUnbalanced : Obligations.MatcherReturnsAPositionOrUnbalanced := by
  intro prog start dir
  cases h : findBoundary prog start dir with
  | ok b => exact .inl ⟨b, findBoundary_lt h, rfl⟩
  | error e => exact .inr (congrArg _ (scan_error h))

/-- Settles O47: after the bracket a proper call starts from its counter is positive, so it falls to 0 further on, at a
bracket of the other kind. -/
theorem properCallsReturnTheOtherBracket : Obligations.ProperCallsReturnTheOtherBracket :=
  fun _ _ _ => ⟨findBoundary_forward_ok, findBoundary_backward_ok⟩

/-- Settles O51: the call ends before its first character, or at it with the counter at -1 or at 0. -/
theorem improperMatcherCalls : Obligations.ImproperMatcherCalls := by
  refine ⟨fun _ _ _ => scanFrom_outside, fun prog p hp => ?_, fun prog p hp => ?_, fun prog p c dir hp ho hc => ?_⟩
  · rw [findBoundary, scanFrom_inside hp]
    simp [Direction.sign]
  · rw [findBoundary, scanFrom_inside hp]
    simp [Direction.sign]
  · rw [findBoundary, scanFrom_inside hp, depthChange_other dir c ho hc]
    rfl

/-! ### The depth counter (R69, R70) -/

/-- The opening less the closing brackets of a text. -/
def netOpens (l : List Char) : Int := (l.count '[' : Int) - l.count ']'

@[simp] theorem netOpens_nil : netOpens [] = 0 := rfl

@[simp] theorem netOpens_append (l m : List Char) : netOpens (l ++ m) = netOpens l + netOpens m := by
  simp only [netOpens, List.count_append]
  omega

@[simp] theorem netOpens_reverse (l : List Char) : netOpens l.reverse = netOpens l := by
  simp only [netOpens, List.count_reverse]

/-- One character's share of the counter (R70). -/
theorem sign_mul_netOpens_cons (dir : Direction) (c : Char) (l : List Char) :
    dir.sign * netOpens (c :: l) = depthChange dir c + dir.sign * netOpens l := by
  have hcons : netOpens (c :: l) = netOpens [c] + netOpens l := netOpens_append [c] l
  have hone : dir.sign * netOpens [c] = depthChange dir c := by
    by_cases ho : c = '['
    · subst ho
      simp [netOpens]
    · by_cases hc : c = ']'
      · subst hc
        simp [netOpens]
      · simp [netOpens, ho, hc, depthChange_other]
  rw [hcons, Int.mul_add, hone]

theorem evenSegment_iff {prog : List Char} {p q : Nat} : EvenSegment prog p q ↔ netOpens (segment prog p q) = 0 := by
  unfold EvenSegment netOpens
  omega

/-- The depth counter after the characters of `l` at the indices up to `k`, started at `depth`. -/
def counterAfter (dir : Direction) (depth : Int) (l : List (Char × Nat)) (k : Nat) : Int :=
  depth + dir.sign * netOpens ((l.map Prod.fst).take (k + 1))

section

variable {dir : Direction} {depth : Int} {c : Char} {pos : Nat} {l : List (Char × Nat)}

@[simp] theorem counterAfter_cons_zero : counterAfter dir depth ((c, pos) :: l) 0 = depth + depthChange dir c := by
  simp [counterAfter, sign_mul_netOpens_cons]

@[simp] theorem counterAfter_cons_succ (k : Nat) :
    counterAfter dir depth ((c, pos) :: l) (k + 1) = counterAfter dir (depth + depthChange dir c) l k := by
  simp only [counterAfter, List.map_cons, List.take_succ_cons, sign_mul_netOpens_cons, Int.add_assoc]

theorem counterAfter_zero_eq_zero_iff {k : Nat} :
    counterAfter dir 0 l k = 0 ↔ netOpens ((l.map Prod.fst).take (k + 1)) = 0 := by
  cases dir <;> simp [counterAfter, Direction.sign]

theorem neg_one_le_depthChange (dir : Direction) (c : Char) : -1 ≤ depthChange dir c := by
  unfold depthChange
  cases dir <;> simp only [Direction.sign] <;> split_ifs <;> decide

end

/-! ### The boundary is the first position where the counter is 0 -/

/-- The scan's next character leaves the counter at 0 or above: so at the start of a proper call, and as long as the
counter is positive (R75 (a)). -/
def NextNotBelow (dir : Direction) (depth : Int) (l : List (Char × Nat)) : Prop :=
  ∀ x ∈ l.head?, 0 ≤ depth + depthChange dir x.1

theorem nextNotBelow_of_pos {dir : Direction} {depth : Int} (l : List (Char × Nat)) (h : 0 < depth) :
    NextNotBelow dir depth l := by
  intro x _
  have := neg_one_le_depthChange dir x.1
  omega

/-- A scan that meets no negative counter answers the first position at which its counter is 0. -/
theorem scan_ok_iff {dir : Direction} {depth : Int} {l : List (Char × Nat)} {b : Nat}
    (hnext : NextNotBelow dir depth l) :
    scan dir depth l = .ok b ↔
      ∃ k, (l.map Prod.snd)[k]? = some b ∧ counterAfter dir depth l k = 0 ∧
        ∀ j < k, counterAfter dir depth l j ≠ 0 := by
  induction l generalizing depth with
  | nil => simp [scan]
  | cons x l ih =>
    obtain ⟨c, pos⟩ := x
    have hnonneg : 0 ≤ depth + depthChange dir c := hnext (c, pos) rfl
    rw [scan, if_neg (Int.not_lt.mpr hnonneg)]
    split
    · next hzero =>
      constructor
      · rintro ⟨rfl⟩
        exact ⟨0, rfl, by simpa using hzero, by simp⟩
      · rintro ⟨k, hpos, -, hfirst⟩
        cases k with
        | zero => exact congrArg _ (Option.some.inj hpos)
        | succ k => exact absurd (by simpa using hzero) (hfirst 0 k.succ_pos)
    · next hne =>
      rw [ih (nextNotBelow_of_pos l (by omega))]
      constructor
      · rintro ⟨k, hpos, hzero, hfirst⟩
        refine ⟨k + 1, hpos, by simpa using hzero, fun j hj => ?_⟩
        cases j with
        | zero => simpa using hne
        | succ j => simpa using hfirst j (Nat.lt_of_succ_lt_succ hj)
      · rintro ⟨k, hpos, hzero, hfirst⟩
        cases k with
        | zero => exact absurd (by simpa using hzero) hne
        | succ k => exact ⟨k, hpos, by simpa using hzero, fun j hj => by simpa using hfirst (j + 1) (by omega)⟩

/-- A scan that meets no negative counter fails exactly when its counter is 0 nowhere. -/
theorem scan_error_iff {dir : Direction} {depth : Int} {l : List (Char × Nat)} (hnext : NextNotBelow dir depth l) :
    scan dir depth l = .error .unbalancedBrackets ↔ ∀ k < l.length, counterAfter dir depth l k ≠ 0 := by
  induction l generalizing depth with
  | nil => simp [scan]
  | cons x l ih =>
    obtain ⟨c, pos⟩ := x
    have hnonneg : 0 ≤ depth + depthChange dir c := hnext (c, pos) rfl
    rw [scan, if_neg (Int.not_lt.mpr hnonneg), List.length_cons, Nat.forall_lt_succ_left]
    simp only [counterAfter_cons_zero, counterAfter_cons_succ]
    split
    · next hzero => simp [hzero]
    · next hne =>
      rw [ih (nextNotBelow_of_pos l (by omega))]
      exact (and_iff_right hne).symm

/-! ### The characters and positions a call visits -/

section

variable {prog : List Char} {p : Nat}

theorem scanPath_forward (hp : p < prog.length) : scanPath prog .forward p = prog.zipIdx.drop p :=
  if_neg (by omega)

theorem scanPath_backward (hp : p < prog.length) :
    scanPath prog .backward p = (prog.zipIdx.take (p + 1)).reverse :=
  if_neg (by omega)

theorem length_scanPath_forward (hp : p < prog.length) : (scanPath prog .forward p).length = prog.length - p := by
  simp [scanPath_forward hp]

theorem length_scanPath_backward (hp : p < prog.length) : (scanPath prog .backward p).length = p + 1 := by
  rw [scanPath_backward hp, List.length_reverse, List.length_take, List.length_zipIdx, Nat.min_eq_left hp]

/-- The first `k + 1` characters a forward call visits are a segment. -/
theorem take_scanPath_forward (hp : p < prog.length) (k : Nat) :
    ((scanPath prog .forward p).map Prod.fst).take (k + 1) = segment prog p (p + k) := by
  simp [scanPath_forward hp, segment, List.map_drop, Nat.add_assoc]

/-- The first `k + 1` characters a backward call visits are a segment, read from its end. -/
theorem take_scanPath_backward (hp : p < prog.length) (k : Nat) :
    ((scanPath prog .backward p).map Prod.fst).take (k + 1) = (segment prog (p - k) p).reverse := by
  have hlen : min (p + 1) prog.length - (k + 1) = p - k := by omega
  simp [scanPath_backward hp, segment, List.map_take, List.take_reverse, hlen, List.drop_take]

/-- The position a forward call visits at its iteration `k`. -/
theorem getElem?_scanPath_forward (hp : p < prog.length) {k b : Nat} :
    ((scanPath prog .forward p).map Prod.snd)[k]? = some b ↔ b = p + k ∧ b < prog.length := by
  have hrange : (scanPath prog .forward p).map Prod.snd = List.range' p (prog.length - p) := by
    simp [scanPath_forward hp]
  rw [hrange, List.getElem?_eq_some_iff]
  simp only [List.length_range', List.getElem_range', exists_prop]
  omega

/-- The position a backward call visits at its iteration `k`. -/
theorem getElem?_scanPath_backward (hp : p < prog.length) {k b : Nat} :
    ((scanPath prog .backward p).map Prod.snd)[k]? = some b ↔ b + k = p := by
  have hrange : (scanPath prog .backward p).map Prod.snd = (List.range (p + 1)).reverse := by
    rw [scanPath_backward hp, List.map_reverse, List.map_take, List.zipIdx_map_snd, ← List.range_eq_range',
      List.take_range, Nat.min_eq_left hp]
  rw [hrange, List.getElem?_eq_some_iff]
  simp only [List.length_reverse, List.length_range, List.getElem_reverse, List.getElem_range, exists_prop]
  omega

theorem nextNotBelow_forward_of_open (h : prog[p]? = some '[') :
    NextNotBelow .forward 0 (scanPath prog .forward p) := by
  rw [scanPath_cons h]
  simp [NextNotBelow, Direction.sign]

theorem nextNotBelow_backward_of_close (h : prog[p]? = some ']') :
    NextNotBelow .backward 0 (scanPath prog .backward p) := by
  rw [scanPath_cons h]
  simp [NextNotBelow, Direction.sign]

/-- The counter of a forward call is 0 where it has visited an even segment. -/
theorem counterAfter_forward_eq_zero_iff (hp : p < prog.length) (k : Nat) :
    counterAfter .forward 0 (scanPath prog .forward p) k = 0 ↔ EvenSegment prog p (p + k) := by
  rw [counterAfter_zero_eq_zero_iff, take_scanPath_forward hp, evenSegment_iff]

/-- The counter of a backward call is 0 where it has visited an even segment. -/
theorem counterAfter_backward_eq_zero_iff (hp : p < prog.length) (k : Nat) :
    counterAfter .backward 0 (scanPath prog .backward p) k = 0 ↔ EvenSegment prog (p - k) p := by
  rw [counterAfter_zero_eq_zero_iff, take_scanPath_backward hp, netOpens_reverse, evenSegment_iff]

end

/-! ### The boundary is the end of the shortest even segment (R75 (e)) -/

section

variable {prog : List Char} {p q : Nat}

theorem findBoundary_forward_ok_iff (hopen : prog[p]? = some '[') :
    findBoundary prog p .forward = .ok q ↔
      p ≤ q ∧ q < prog.length ∧ EvenSegment prog p q ∧ ∀ r, p ≤ r → r < q → ¬ EvenSegment prog p r := by
  have hp : p < prog.length := (List.getElem?_eq_some_iff.mp hopen).1
  refine (scan_ok_iff (nextNotBelow_forward_of_open hopen)).trans ?_
  simp only [getElem?_scanPath_forward hp, counterAfter_forward_eq_zero_iff hp, ne_eq]
  constructor
  · rintro ⟨k, ⟨rfl, hq⟩, heven, hfirst⟩
    refine ⟨Nat.le_add_right p k, hq, heven, fun r hpr hrq => ?_⟩
    obtain ⟨j, rfl⟩ := Nat.exists_eq_add_of_le hpr
    exact hfirst j (by omega)
  · rintro ⟨hpq, hq, heven, hfirst⟩
    obtain ⟨k, rfl⟩ := Nat.exists_eq_add_of_le hpq
    exact ⟨k, ⟨rfl, hq⟩, heven, fun j hj => hfirst (p + j) (by omega) (by omega)⟩

theorem findBoundary_forward_error_iff (hopen : prog[p]? = some '[') :
    findBoundary prog p .forward = .error .unbalancedBrackets ↔
      ∀ r, p ≤ r → r < prog.length → ¬ EvenSegment prog p r := by
  have hp : p < prog.length := (List.getElem?_eq_some_iff.mp hopen).1
  refine (scan_error_iff (nextNotBelow_forward_of_open hopen)).trans ?_
  simp only [length_scanPath_forward hp, counterAfter_forward_eq_zero_iff hp, ne_eq]
  constructor
  · intro hnone r hpr hr
    obtain ⟨j, rfl⟩ := Nat.exists_eq_add_of_le hpr
    exact hnone j (by omega)
  · exact fun hnone k hk => hnone (p + k) (by omega) (by omega)

theorem findBoundary_backward_ok_iff (hclose : prog[p]? = some ']') :
    findBoundary prog p .backward = .ok q ↔
      q ≤ p ∧ EvenSegment prog q p ∧ ∀ r, q < r → r ≤ p → ¬ EvenSegment prog r p := by
  have hp : p < prog.length := (List.getElem?_eq_some_iff.mp hclose).1
  refine (scan_ok_iff (nextNotBelow_backward_of_close hclose)).trans ?_
  simp only [getElem?_scanPath_backward hp, counterAfter_backward_eq_zero_iff hp, ne_eq]
  constructor
  · rintro ⟨k, rfl, heven, hfirst⟩
    refine ⟨Nat.le_add_right q k, by rwa [Nat.add_sub_cancel] at heven, fun r hqr hrp => ?_⟩
    rw [← Nat.sub_sub_self hrp]
    exact hfirst _ (by omega)
  · rintro ⟨hqp, heven, hfirst⟩
    exact ⟨p - q, Nat.add_sub_of_le hqp, by rwa [Nat.sub_sub_self hqp],
      fun j hj => hfirst (p - j) (by omega) (by omega)⟩

theorem findBoundary_backward_error_iff (hclose : prog[p]? = some ']') :
    findBoundary prog p .backward = .error .unbalancedBrackets ↔ ∀ r, r ≤ p → ¬ EvenSegment prog r p := by
  have hp : p < prog.length := (List.getElem?_eq_some_iff.mp hclose).1
  refine (scan_error_iff (nextNotBelow_backward_of_close hclose)).trans ?_
  simp only [length_scanPath_backward hp, counterAfter_backward_eq_zero_iff hp, ne_eq]
  constructor
  · intro hnone r hrp
    rw [← Nat.sub_sub_self hrp]
    exact hnone _ (by omega)
  · exact fun hnone k _ => hnone (p - k) (by omega)

end

/-- Settles O49: a forward call visits the segments from its `[` in the order of their lengths, and its counter is 0 at
the even ones. -/
theorem forwardBoundaryIsTheShortestEvenSegment : Obligations.ForwardBoundaryIsTheShortestEvenSegment :=
  fun _ _ hopen => ⟨fun _ => findBoundary_forward_ok_iff hopen, findBoundary_forward_error_iff hopen⟩

/-- Settles O50: a backward call visits the segments up to its `]` in the order of their lengths, and its counter is 0
at the even ones. -/
theorem backwardBoundaryIsTheShortestEvenSegment : Obligations.BackwardBoundaryIsTheShortestEvenSegment :=
  fun _ _ hclose => ⟨fun _ => findBoundary_backward_ok_iff hclose, findBoundary_backward_error_iff hclose⟩

/-! ### Symmetry (R75 (c)) -/

section

variable {prog : List Char} {p q m : Nat}

theorem segment_append_segment (hpm : p ≤ m) (hmq : m < q) :
    segment prog p m ++ segment prog (m + 1) q = segment prog p q := by
  have hlen : q + 1 - p = (m + 1 - p) + (q + 1 - (m + 1)) := by omega
  have hdrop : p + (m + 1 - p) = m + 1 := by omega
  rw [segment, segment, segment, hlen, List.take_add, List.drop_drop, hdrop]

/-- Cut in two, an even segment has two even parts or two uneven ones. -/
theorem evenSegment_front_iff_back (heven : EvenSegment prog p q) (hpm : p ≤ m) (hmq : m < q) :
    EvenSegment prog p m ↔ EvenSegment prog (m + 1) q := by
  rw [evenSegment_iff, ← segment_append_segment hpm hmq, netOpens_append] at heven
  rw [evenSegment_iff, evenSegment_iff]
  omega

/-- An even segment is the shortest one from its start exactly when it is the shortest one up to its end. -/
theorem shortest_from_start_iff_up_to_end (heven : EvenSegment prog p q) :
    (∀ r, p ≤ r → r < q → ¬ EvenSegment prog p r) ↔ ∀ r, p < r → r ≤ q → ¬ EvenSegment prog r q := by
  constructor
  · intro hfront r hpr hrq hback
    obtain ⟨m, rfl⟩ := Nat.exists_eq_add_one_of_ne_zero (Nat.ne_zero_of_lt hpr)
    exact hfront m (by omega) hrq ((evenSegment_front_iff_back heven (by omega) hrq).mpr hback)
  · exact fun hback r hpr hrq hfront =>
      hback (r + 1) (by omega) hrq ((evenSegment_front_iff_back heven hpr hrq).mp hfront)

end

/-- Settles O48: both calls end at the other end of one segment, the shortest even one seen from either side. -/
theorem matchingIsSymmetric : Obligations.MatchingIsSymmetric := by
  refine fun prog p q => ⟨fun hopen hok => ?_, fun hclose hok => ?_⟩
  · have hclose := (findBoundary_forward_ok hopen hok).2
    obtain ⟨hpq, -, heven, hfirst⟩ := (findBoundary_forward_ok_iff hopen).mp hok
    exact (findBoundary_backward_ok_iff hclose).mpr ⟨hpq, heven, (shortest_from_start_iff_up_to_end heven).mp hfirst⟩
  · have hopen := (findBoundary_backward_ok hclose hok).2
    have hq : q < prog.length := (List.getElem?_eq_some_iff.mp hclose).1
    obtain ⟨hpq, heven, hfirst⟩ := (findBoundary_backward_ok_iff hclose).mp hok
    exact (findBoundary_forward_ok_iff hopen).mpr ⟨hpq, hq, heven, (shortest_from_start_iff_up_to_end heven).mpr hfirst⟩

end Sys2Proof.Machine
end

section
/-! PROOFS, 60_exceptions.md. Which fault each kind of step raises (R83), and what fault entry leaves (R84 to R86). -/

namespace Sys2Proof.Machine

/-- A step from `s` raises the fault `e`: the validate step for a defect of the program (R49), or the instruction whose
encoding stands at `IP` for its own fault (R83). -/
inductive StepRaises (s : State) : ErrKind → Prop
  | char {e : ErrKind} (hval : s.status = .validate) (hdefect : charDefect s = some e) : StepRaises s e
  | bracket {e : ErrKind} (hval : s.status = .validate) (hchar : charDefect s = none)
      (hdefect : bracketDefect s = some e) : StepRaises s e
  | instr {e : ErrKind} (i : Instr) (hrun : s.status = .run) (hfetch : s.prog[s.ip]? = some (encode i))
      (hraises : Raises s i e) : StepRaises s e

/-- A step is one fault entry, or it leaves `ERR` alone and does not end in `FAULTED`. -/
theorem step_raises_or_keeps_err {s t : State} (h : step s = .next t) :
    (∃ e, StepRaises s e ∧ t = raise e s) ∨ (t.err = s.err ∧ t.status ≠ .faulted) := by
  rcases step_cases h with ⟨hval, rfl⟩ | ⟨-, -, rfl⟩ | ⟨hrun, c, hfetch, hexec⟩
  · rcases validateStep_cases s with ⟨e, hdefect, heq⟩ | ⟨hchar, e, hdefect, heq⟩ | ⟨-, -, heq⟩
    · exact .inl ⟨e, .char hval hdefect, heq⟩
    · exact .inl ⟨e, .bracket hval hchar hdefect, heq⟩
    · exact .inr (by simp [heq])
  · exact .inr (by simp)
  · rcases exec_cases hexec with ⟨e, hraises, heq⟩ | hdone
    · exact .inl ⟨e, .instr _ hrun (by rw [encode_decode, hfetch]) hraises, heq⟩
    · obtain ⟨hstatus, herr⟩ := hdone.noFault
      exact .inr ⟨herr, by simp [hstatus, hrun]⟩

/-- Each fault of an instruction is the one R83's table gives it. -/
theorem Raises.fault_of_instr {s : State} {i : Instr} {e : ErrKind} (h : Raises s i e) :
    ((i = .right ∨ i = .left) ∧ e = .outOfBoundsAccess) ∨
    (i = .input ∧ e = .unexpectedEndOfInput) ∨
    ((i = .loop ∨ i = .endloop) ∧ e = .unbalancedBrackets) ∨
    (∃ c, i = .invalid c ∧ e = .unexpectedCharInCode c) := by
  cases h with
  | right => exact .inl ⟨.inl rfl, rfl⟩
  | left => exact .inl ⟨.inr rfl, rfl⟩
  | input => exact .inr (.inl ⟨rfl, rfl⟩)
  | loop => exact .inr (.inr (.inl ⟨.inl rfl, rfl⟩))
  | endloop => exact .inr (.inr (.inl ⟨.inr rfl, rfl⟩))
  | invalid c => exact .inr (.inr (.inr ⟨c, rfl, rfl⟩))

/-- The validate step of the lazy bracket policy raises no fault but that of a character of the program. -/
theorem StepRaises.char_of_validate {s : State} {e : ErrKind} (h : StepRaises s e) (hval : s.status = .validate)
    (hlazy : s.cfg.bracketCheck = .lazy) : ∃ c ∈ s.prog, e = .unexpectedCharInCode c := by
  cases h with
  | char _ hdefect =>
    obtain ⟨-, c, hfirst, rfl⟩ := (charDefect_eq_some_iff s e).mp hdefect
    exact ⟨c, (firstInvalid_spec hfirst).1, rfl⟩
  | bracket _ _ hdefect => simp [bracketDefect_of_lazy hlazy] at hdefect
  | instr i hrun => simp [hrun] at hval

/-- Settles O38: an executed instruction takes its own fault or leaves `ERR` alone, and so does the validate step. -/
theorem eachInstructionRaisesOnlyItsOwnFault : Obligations.EachInstructionRaisesOnlyItsOwnFault := by
  refine ⟨fun i s t hnone h => ?_, fun s t hval hlazy hnone h => ?_⟩
  · rcases exec_cases h with ⟨e, hraises, rfl⟩ | hdone
    · exact .inr (by simpa using hraises.fault_of_instr)
    · exact .inl (hdone.noFault.err.trans hnone)
  · rcases step_raises_or_keeps_err h with ⟨e, hraises, rfl⟩ | ⟨herr, -⟩
    · exact .inr (by simpa using hraises.char_of_validate hval hlazy)
    · exact .inl (herr.trans hnone)

/-- Settles O39: of a step's outcomes only fault entry ends in `FAULTED`. -/
theorem faultsArePreciseAndDiscardOutput : Obligations.FaultsArePreciseAndDiscardOutput := by
  intro s t h hfaulted
  rcases step_raises_or_keeps_err h with ⟨e, -, rfl⟩ | ⟨-, hstatus⟩
  · exact ⟨e, takesFault_raise e s⟩
  · exact absurd hfaulted hstatus

/-! ### The invalid program under the eager check (R78) -/

/-- A faulted engine has taken its last step. -/
theorem run_of_faulted {s t : State} {n : Nat} (hfaulted : s.status = .faulted)
    (h : Host.Core.run core n s = .next t) : t = s := by
  cases n with
  | zero => cases h; rfl
  | succ n =>
    have hstop : core.step s = .fault .engineFaulted := step_faulted hfaulted
    simp [Host.Core.run, hstop] at h

theorem exists_firstInvalid_of_mem {ws prog : List Char} {c : Char} (hc : c ∈ prog)
    (hinvalid : decode ws c = .invalid c) : ∃ d, firstInvalid ws prog = some d :=
  Option.ne_none_iff_exists'.mp fun hnone => (firstInvalid_eq_none_iff ws prog).mp hnone c hc hinvalid

/-- The first step of a launch under the eager character check reports the lowest invalid character. -/
theorem step_launch_of_firstInvalid {cfg : Config} {prog : List Char} {d : Char} (input : List Byte)
    (heager : cfg.charCheck = .eager) (hfirst : firstInvalid cfg.ws prog = some d) :
    step (State.launch cfg prog input) = .next (raise (.unexpectedCharInCode d) (State.launch cfg prog input)) := by
  have hdefect : charDefect (State.launch cfg prog input) = some (.unexpectedCharInCode d) :=
    (charDefect_eq_some_iff _ _).mpr ⟨heager, d, hfirst, rfl⟩
  rw [step_validate rfl, validateStep_of_charDefect hdefect]

/-- Settles O42: the first step is the fault entry, and the run stays in the state it leaves. -/
theorem invalidProgramsEndWithTheirCharacterFault : Obligations.InvalidProgramsEndWithTheirCharacterFault := by
  intro cfg prog input c n t heager hc hinvalid hrun
  obtain ⟨d, hfirst⟩ := exists_firstInvalid_of_mem hc hinvalid
  have hstep : core.step (State.launch cfg prog input) =
      .next (raise (.unexpectedCharInCode d) (State.launch cfg prog input)) :=
    step_launch_of_firstInvalid input heager hfirst
  simp only [Host.Core.run, hstep] at hrun
  obtain rfl := run_of_faulted (raise_status _ _) hrun
  exact ⟨rfl, rfl, rfl, d, hfirst, rfl⟩

end Sys2Proof.Machine
end

section
/-! PROOFS, 70_reset_and_hazards.md. Reset (R93) and the result of a launch (R96). -/

namespace Sys2Proof.Machine

theorem relaunch_eq_of_sameLaunch {s t : State} (h : SameLaunch s t) : relaunch s = relaunch t := by
  obtain ⟨hcfg, hprog, hinput⟩ := h
  rw [relaunch, relaunch, hcfg, hprog, hinput]

/-- Settles O7: reset is the launch state of the same configuration, `PROG` and `IN`. -/
theorem resetStartsALaunchAfresh : Obligations.ResetStartsALaunchAfresh := by
  refine ⟨fun s => ?_, fun _ _ => relaunch_eq_of_sameLaunch⟩
  have hlaunch : SameLaunch s (relaunch s) := ⟨rfl, rfl, rfl⟩
  have hcells : ∀ a, (relaunch s).tape.read a = 0 := Memory.read_nil
  have hnone : (relaunch s).err = none := relaunch_err s
  exact ⟨hlaunch, hcells, rfl, rfl, rfl, rfl, rfl, errKind_of_none hnone, errChar_of_none hnone⟩

section

variable {s : State}

theorem result_of_halted (h : s.status = .halted) : s.result = some (.ok s.out) := by
  simp only [State.result, h]

theorem result_of_faulted {e : ErrKind} (h : s.status = .faulted) (herr : s.err = some e) :
    s.result = some (.err e) := by
  simp only [State.result, h, herr, Option.map_some]

theorem result_of_not_terminal (h : ¬ s.Terminal) : s.result = none := by
  cases hst : s.status with
  | validate => simp only [State.result, hst]
  | run => simp only [State.result, hst]
  | halted => exact absurd (.inl hst) h
  | faulted => exact absurd (.inr hst) h

/-- A faulted state that meets the invariant records its fault (R18). -/
theorem State.Inv.exists_err (h : s.Inv) (hfaulted : s.status = .faulted) : ∃ e, s.err = some e :=
  Option.ne_none_iff_exists'.mp (h.errIffFaulted.mpr hfaulted)

end

/-- Settles O41: `HALTED` gives the output, `FAULTED` the fault the invariant has recorded, and no other status a
result. -/
theorem resultExistsOnlyAtTheEnd : Obligations.ResultExistsOnlyAtTheEnd := by
  intro s hinv
  have hfaulted : s.status = .faulted → ∃ e, s.err = some e ∧ s.result = some (.err e) := by
    intro hst
    obtain ⟨e, herr⟩ := hinv.exists_err hst
    exact ⟨e, herr, result_of_faulted hst herr⟩
  refine ⟨⟨?_, result_of_not_terminal⟩, result_of_halted, hfaulted⟩
  rintro hnone (hst | hst)
  · simp [result_of_halted hst] at hnone
  · obtain ⟨e, -, hsome⟩ := hfaulted hst
    simp [hsome] at hnone

end Sys2Proof.Machine
end

section
/-! PROOFS, 92_eei_decisions.md. The check policies `CHAR_CHECK` (D4) and `BRACKET_CHECK` (D5): what the validate step
is under each, and that every other step ignores them. -/

namespace Sys2Proof.Machine

/-! ### The validate step under each policy -/

section

variable {s : State}

theorem charDefect_of_lazy (h : s.cfg.charCheck = .lazy) : charDefect s = none := by
  simp only [charDefect, h]

/-- The bracket check finds nothing in a balanced program, whenever it looks (D5). -/
theorem bracketDefect_of_balanced (h : bracketsBalanced s.prog = true) : bracketDefect s = none := by
  cases hcheck : s.cfg.bracketCheck with
  | lazy => exact bracketDefect_of_lazy hcheck
  | eager => simp only [bracketDefect, hcheck, h, if_true]

theorem bracketDefect_of_unbalanced (heager : s.cfg.bracketCheck = .eager) (h : bracketsBalanced s.prog = false) :
    bracketDefect s = some .unbalancedBrackets := by
  simp [bracketDefect, heager, h]

/-- With no character to report, the bracket check's defect is the fault taken. -/
theorem validateStep_of_bracketDefect {e : ErrKind} (hchar : charDefect s = none) (h : bracketDefect s = some e) :
    validateStep s = raise e s := by
  simp only [validateStep, hchar, h]

theorem step_validate_of_no_defect (hval : s.status = .validate) (hchar : charDefect s = none)
    (hbracket : bracketDefect s = none) : step s = .next (setStatus .run s) := by
  rw [step_validate hval, validateStep_of_no_defect hchar hbracket]

end

/-- Settles O13. -/
theorem lazyValidateOnlyStartsTheRun : Obligations.LazyValidateOnlyStartsTheRun :=
  fun _ hval hchar hbracket =>
    step_validate_of_no_defect hval (charDefect_of_lazy hchar) (bracketDefect_of_lazy hbracket)

/-- Settles O14: the character check reports nothing, so the step is what the bracket check makes it. -/
theorem upfrontBracketCheckRejectsUnbalancedPrograms : Obligations.UpfrontBracketCheckRejectsUnbalancedPrograms := by
  intro s hval heager hvalid
  have hchar : charDefect s = none := by
    rcases hvalid with hlazy | hvalid
    · exact charDefect_of_lazy hlazy
    · exact charDefect_of_firstInvalid_eq_none ((firstInvalid_eq_none_iff _ _).mpr hvalid)
  refine ⟨fun hbal => ?_, fun hunbal => ⟨raise .unbalancedBrackets s, ?_, takesFault_raise _ s⟩⟩
  · exact step_validate_of_no_defect hval hchar (bracketDefect_of_balanced hbal)
  · rw [step_validate hval, validateStep_of_bracketDefect hchar (bracketDefect_of_unbalanced heager hunbal)]

/-! ### Every other step ignores the policies -/

/-- The outcome with other check policies in its next state. -/
def outcomeWithChecks (charCheck bracketCheck : CheckTime) : StepOutcome → StepOutcome
  | .next t => .next (t.withChecks charCheck bracketCheck)
  | .fault f => .fault f
  | .refused r => .refused r

section

variable (cc bc : CheckTime) (s : State)

/-- An access of the current cell ignores the policies when what it goes on to does. -/
theorem withCell_withChecks {k k' : Byte → StepOutcome} (hk : ∀ v, k' v = outcomeWithChecks cc bc (k v)) :
    withCell (s.withChecks cc bc) k' = outcomeWithChecks cc bc (withCell s k) := by
  by_cases hmp : s.mp < s.cfg.tapeSize
  · rw [withCell_inTape k hmp]
    exact (withCell_inTape k' hmp).trans (hk _)
  · rw [withCell_offTape k (Nat.not_lt.mp hmp)]
    exact withCell_offTape k' (Nat.not_lt.mp hmp)

theorem storeCell_withChecks (v : Byte) :
    storeCell v (s.withChecks cc bc) = outcomeWithChecks cc bc (storeCell v s) := by
  by_cases hmp : s.mp < s.cfg.tapeSize
  · rw [storeCell_inTape v hmp]
    exact storeCell_inTape v hmp
  · rw [storeCell_offTape v (Nat.not_lt.mp hmp)]
    exact storeCell_offTape v (Nat.not_lt.mp hmp)

theorem jumpPastBoundary_withChecks (dir : Direction) :
    jumpPastBoundary dir (s.withChecks cc bc) = (jumpPastBoundary dir s).withChecks cc bc := by
  cases h : findBoundary s.prog s.ip dir with
  | ok b =>
    rw [jumpPastBoundary_of_ok h]
    exact jumpPastBoundary_of_ok h
  | error e =>
    rw [jumpPastBoundary_of_error h]
    exact jumpPastBoundary_of_error h

theorem execInput_withChecks : execInput (s.withChecks cc bc) = outcomeWithChecks cc bc (execInput s) := by
  cases hpop : inPop s with
  | none =>
    have hpop' : inPop (s.withChecks cc bc) = none := (inPop_eq_none_iff _).mpr ((inPop_eq_none_iff s).mp hpop)
    simp only [execInput, hpop, hpop']
    rfl
  | some x =>
    obtain ⟨b, t⟩ := x
    obtain ⟨hbyte, rfl⟩ := (inPop_eq_some_iff s t b).mp hpop
    have hpop' : inPop (s.withChecks cc bc) = some (b, State.withChecks { s with ic := s.ic + 1 } cc bc) :=
      (inPop_eq_some_iff _ _ b).mpr ⟨hbyte, rfl⟩
    simp only [execInput, hpop, hpop']
    exact storeCell_withChecks cc bc _ b

/-- Instructions ignore the policies. -/
theorem exec_withChecks (i : Instr) : exec i (s.withChecks cc bc) = outcomeWithChecks cc bc (exec i s) := by
  cases i with
  | right =>
    by_cases hlast : s.mp + 1 = s.cfg.tapeSize
    · rw [exec_right_of_last hlast]
      exact exec_right_of_last hlast
    · rw [exec_right_of_not_last hlast]
      exact exec_right_of_not_last hlast
  | left =>
    by_cases hfirst : s.mp = 0
    · rw [exec_left_of_eq_zero hfirst]
      exact exec_left_of_eq_zero hfirst
    · rw [exec_left_of_ne_zero hfirst]
      exact exec_left_of_ne_zero hfirst
  | inc => exact withCell_withChecks cc bc s fun _ => storeCell_withChecks cc bc s _
  | dec => exact withCell_withChecks cc bc s fun _ => storeCell_withChecks cc bc s _
  | output => exact withCell_withChecks cc bc s fun _ => rfl
  | input => exact execInput_withChecks cc bc s
  | loop =>
    refine withCell_withChecks cc bc s fun _ => ?_
    rw [apply_ite (outcomeWithChecks cc bc), jumpPastBoundary_withChecks]
    rfl
  | endloop =>
    refine withCell_withChecks cc bc s fun _ => ?_
    rw [apply_ite (outcomeWithChecks cc bc), jumpPastBoundary_withChecks]
    rfl
  | nop c => rfl
  | invalid c => rfl

end

/-- On a program with valid characters and balanced brackets the policies decide nothing. -/
theorem step_withChecks {s : State} (cc bc : CheckTime) (hvalid : firstInvalid s.cfg.ws s.prog = none)
    (hbal : bracketsBalanced s.prog = true) :
    step (s.withChecks cc bc) = outcomeWithChecks cc bc (step s) := by
  cases hst : s.status with
  | validate =>
    rw [step_validate_of_no_defect hst (charDefect_of_firstInvalid_eq_none hvalid) (bracketDefect_of_balanced hbal)]
    exact step_validate_of_no_defect hst (charDefect_of_firstInvalid_eq_none hvalid) (bracketDefect_of_balanced hbal)
  | run =>
    cases hfetch : s.prog[s.ip]? with
    | none =>
      have hip : s.prog.length ≤ s.ip := List.getElem?_eq_none_iff.mp hfetch
      rw [step_pastEnd hst hip]
      exact step_pastEnd hst hip
    | some c =>
      rw [step_fetch hst hfetch, ← exec_withChecks]
      exact step_fetch hst hfetch
  | halted =>
    rw [step_halted hst]
    exact step_halted hst
  | faulted =>
    rw [step_faulted hst]
    exact step_faulted hst

/-- Settles O43: the step under the other policies is the step's outcome with those policies written in. -/
theorem checkPoliciesAgreeOnSoundPrograms : Obligations.CheckPoliciesAgreeOnSoundPrograms := by
  intro s cc bc hvalid hbal
  rw [step_withChecks cc bc hvalid hbal]
  exact ⟨fun t h => by rw [h]; rfl, fun f h => by rw [h]; rfl⟩

end Sys2Proof.Machine
end

section
/-! PROOFS, 95_test_vectors.md S7. In a balanced program no text before a position closes more brackets than it opens,
so the counter of a proper matcher call comes down to 0 before the program ends. -/

namespace Sys2Proof.Machine

/-! ### The balance of a program (D5, log 10) -/

/-- One character's share of the opening less the closing brackets. -/
theorem netOpens_cons (c : Char) (l : List Char) : netOpens (c :: l) = depthChange .forward c + netOpens l := by
  simpa [Direction.sign] using sign_mul_netOpens_cons .forward c l

/-- After the front of a text that closes every bracket, the rest closes those still open: a natural number of them. -/
theorem exists_closesFrom_of_append {d : Nat} {l m : List Char} (h : closesFrom d (l ++ m) = true) :
    ∃ e : Nat, (e : Int) = d + netOpens l ∧ closesFrom e m = true := by
  induction l generalizing d with
  | nil => exact ⟨d, by simp, h⟩
  | cons c l ih =>
    rw [List.cons_append] at h
    unfold closesFrom at h
    rw [netOpens_cons]
    split at h
    · next hopen =>
      subst hopen
      obtain ⟨e, he, hrest⟩ := ih h
      refine ⟨e, ?_, hrest⟩
      rw [depthChange_open, Direction.sign]
      omega
    · next hopen =>
      split at h
      · next hclose =>
        subst hclose
        cases d with
        | zero => cases h
        | succ d =>
          obtain ⟨e, he, hrest⟩ := ih h
          refine ⟨e, ?_, hrest⟩
          rw [depthChange_close, Direction.sign]
          omega
      · next hclose =>
        obtain ⟨e, he, hrest⟩ := ih h
        exact ⟨e, by simpa [depthChange_other _ c hopen hclose] using he, hrest⟩

section

variable {prog : List Char} {p : Nat} {c : Char} {dir : Direction}

theorem netOpens_take_nonneg (h : bracketsBalanced prog = true) (k : Nat) : 0 ≤ netOpens (prog.take k) := by
  obtain ⟨e, he, -⟩ := exists_closesFrom_of_append (d := 0) (l := prog.take k) (m := prog.drop k)
    (by rwa [List.take_append_drop])
  omega

theorem netOpens_eq_zero (h : bracketsBalanced prog = true) : netOpens prog = 0 := by
  obtain ⟨e, he, hnil⟩ := exists_closesFrom_of_append (d := 0) (l := prog) (m := []) (by rwa [List.append_nil])
  have hzero : e = 0 := of_decide_eq_true hnil
  omega

theorem netOpens_drop_nonpos (h : bracketsBalanced prog = true) (k : Nat) : netOpens (prog.drop k) ≤ 0 := by
  have htotal := netOpens_append (prog.take k) (prog.drop k)
  rw [List.take_append_drop, netOpens_eq_zero h] at htotal
  have := netOpens_take_nonneg h k
  omega

/-! ### A proper call returns -/

/-- A counter that is positive and would not be after the last character is 0 on the way: it falls by one at a time. -/
theorem exists_scan_ok_of_pos {depth : Int} {l : List (Char × Nat)} (hdepth : 0 < depth)
    (hend : depth + dir.sign * netOpens (l.map Prod.fst) ≤ 0) : ∃ q, scan dir depth l = .ok q := by
  induction l generalizing depth with
  | nil =>
    have hle : depth ≤ 0 := by simpa using hend
    omega
  | cons x l ih =>
    obtain ⟨c, pos⟩ := x
    have hstep := neg_one_le_depthChange dir c
    rw [List.map_cons, sign_mul_netOpens_cons, ← Int.add_assoc] at hend
    rw [scan, if_neg (by omega)]
    split
    · exact ⟨pos, rfl⟩
    · exact ih (by omega) hend

/-- A call from a character that opens in its direction returns when the characters it can visit close as many. -/
theorem exists_findBoundary_ok (hc : prog[p]? = some c) (hopens : depthChange dir c = 1)
    (hend : dir.sign * netOpens ((scanPath prog dir p).map Prod.fst) ≤ 0) : ∃ q, findBoundary prog p dir = .ok q := by
  rw [scanPath_cons hc, List.map_cons, sign_mul_netOpens_cons, hopens] at hend
  rw [findBoundary, scanFrom_inside hc, hopens]
  exact exists_scan_ok_of_pos Int.one_pos hend

/-- In a balanced program every `[` has its `]`. -/
theorem exists_findBoundary_forward_ok (h : bracketsBalanced prog = true) (hopen : prog[p]? = some '[') :
    ∃ q, findBoundary prog p .forward = .ok q := by
  have hp : p < prog.length := (List.getElem?_eq_some_iff.mp hopen).1
  refine exists_findBoundary_ok hopen (depthChange_open _) ?_
  simpa [scanPath_forward hp, List.map_drop, Direction.sign] using netOpens_drop_nonpos h p

/-- In a balanced program every `]` has its `[`. -/
theorem exists_findBoundary_backward_ok (h : bracketsBalanced prog = true) (hclose : prog[p]? = some ']') :
    ∃ q, findBoundary prog p .backward = .ok q := by
  have hp : p < prog.length := (List.getElem?_eq_some_iff.mp hclose).1
  refine exists_findBoundary_ok hclose (depthChange_close _) ?_
  simpa [scanPath_backward hp, List.map_take, Direction.sign] using netOpens_take_nonneg h (p + 1)

end

/-- No step of a balanced program raises `UnbalancedBrackets`: the eager check finds no defect, and the matcher call of
either bracket returns. -/
theorem StepRaises.ne_unbalanced {s : State} {e : ErrKind} (h : StepRaises s e)
    (hbal : bracketsBalanced s.prog = true) : e ≠ .unbalancedBrackets := by
  rintro rfl
  cases h with
  | char _ hdefect =>
    obtain ⟨-, c, -, hkind⟩ := (charDefect_eq_some_iff s _).mp hdefect
    cases hkind
  | bracket _ _ hdefect => simp [bracketDefect_of_balanced hbal] at hdefect
  | instr i _ hfetch hraises =>
    cases hraises with
    | loop _ hscan =>
      obtain ⟨q, hok⟩ := exists_findBoundary_forward_ok hbal hfetch
      simp [hok] at hscan
    | endloop _ hscan =>
      obtain ⟨q, hok⟩ := exists_findBoundary_backward_ok hbal hfetch
      simp [hok] at hscan

/-- Settles O52: every bracket's proper call returns, so no step raises the fault, and no other step changes `ERR`. -/
theorem balancedProgramsNeverRaiseUnbalanced : Obligations.BalancedProgramsNeverRaiseUnbalanced := by
  refine ⟨fun prog p hbal => ⟨exists_findBoundary_forward_ok hbal, exists_findBoundary_backward_ok hbal⟩, ?_⟩
  intro s t hbal hne h
  rcases step_raises_or_keeps_err h with ⟨e, hraises, rfl⟩ | ⟨herr, -⟩
  · simpa using hraises.ne_unbalanced hbal
  · rwa [herr]

end Sys2Proof.Machine
end
